-- ==== Sys2Proof/Word.lean ====
section
/-! DEFINITION. The machine's words: 32-bit data and addresses (R20, R26), bytes (R60), 5-bit register
indices (R20). -/

namespace Sys2Proof

/-- A 32-bit data word, address or instruction word (R20, R26, R80). -/
abbrev Word := BitVec 32

/-- One byte of the memory array (R60). -/
abbrev Byte := BitVec 8

/-- A general-register index (R20). -/
abbrev RegIdx := BitVec 5

end Sys2Proof
end

