-- ==== Sys2Proof/Config.lean ====
section
/-! DEFINITION. What is fixed before reset and constant for a run: the two configuration inputs of R46 and
the implementation parameters of R8. -/

namespace Sys2Proof

/-- The hazard policy, POLICY (R46, R300). -/
inductive Policy where
  | stall
  | forward
  deriving DecidableEq, Repr

/-- The predictor's mode, PRED_MODE (R46, R330). -/
inductive PredMode where
  | staticNT
  | oneBit
  | twoBit
  deriving DecidableEq, Repr

/-- What `slt` answers when `a - b` overflows, SLT_MODE (R145). -/
inductive SltMode where
  | trueCompare
  | signOfDiff
  deriving DecidableEq, Repr

/-- What an undetected distance-1 load-use does, LOAD_USE_MODE (R307). -/
inductive LoadUseMode where
  | stale
  | fault
  deriving DecidableEq, Repr

/-- The two values R8 gives JAL_LINK_OFFSET: the default 8 and the alternative 4. -/
inductive LinkOffset where
  | eight
  | four
  deriving DecidableEq, Repr

/-- The number a `LinkOffset` stands for (R8). -/
def LinkOffset.toWord : LinkOffset → Word
  | .eight => 8#32
  | .four => 4#32

/-- The 1-bit history `h1` (R40). -/
inductive OneBit where
  | nt
  | t
  deriving DecidableEq, Repr

/-- The 2-bit saturating history `h2` (R40). -/
inductive TwoBit where
  | snt
  | wnt
  | wt
  | st
  deriving DecidableEq, Repr

/-- The number of a 2-bit state: SNT = 0, WNT = 1, WT = 2, ST = 3 (R40). -/
def TwoBit.level : TwoBit → Nat
  | .snt => 0
  | .wnt => 1
  | .wt => 2
  | .st => 3

/-- POLICY, PRED_MODE and the parameters of R8. RA_INIT is SENTINEL (R8), so it has no field of its own. -/
structure Config where
  policy : Policy
  predMode : PredMode
  /-- MEM_SIZE, in bytes. -/
  memSize : Nat
  sentinel : Word
  spInit : Word
  /-- PRED_INIT when PRED_MODE is ONE_BIT. -/
  predInit1 : OneBit
  /-- PRED_INIT when PRED_MODE is TWO_BIT. -/
  predInit2 : TwoBit
  linkOffset : LinkOffset
  sltMode : SltMode
  loadUseMode : LoadUseMode
  deriving DecidableEq, Repr

/-- RA_INIT, the reset value of register 31 (R8, R24). -/
def Config.raInit (c : Config) : Word := c.sentinel

/-- IMAGE_BASE (R8, R61). -/
def imageBase : Nat := 0

/-- RESET_PC (R8, R28). -/
def resetPc : Word := 0#32

/-- The defaults of R8. R8 gives POLICY and PRED_MODE no default: FORWARD and STATIC_NT are DESIGN CHOICE,
unsafe, the values `95_test_vectors.md` assumes where a vector names none (log entry 3). -/
def Config.default : Config where
  policy := .forward
  predMode := .staticNT
  memSize := 0x01000000
  sentinel := 0xFFFFFFFF#32
  spInit := 0x01000000#32
  predInit1 := .nt
  predInit2 := .snt
  linkOffset := .eight
  sltMode := .trueCompare
  loadUseMode := .stale

end Sys2Proof
end

