-- ==== Sys2Proof/Machine/State.lean ====
section
/-! DEFINITION. The machine's state as plain data: every piece of state of `10_state.md` and `20_memory.md`,
and its reset value (R451). -/

namespace Sys2Proof.Machine

/-- Which index the result is written to: field rt, field rd, or 31 (R29). -/
inductive RegDst where
  | rt
  | rd
  | ra
  deriving DecidableEq, Repr

/-- ALU operand B: `rt_val` or the sign-extended immediate (R29). -/
inductive AluSrc where
  | reg
  | imm
  deriving DecidableEq, Repr

/-- The write-back source: ALU result, loaded word or link address (R29). -/
inductive MemtoReg where
  | alu
  | mem
  | link
  deriving DecidableEq, Repr

/-- The control-signal bundle `Ctrl` (R29). -/
structure Ctrl where
  regDst : RegDst
  aluSrc : AluSrc
  memtoReg : MemtoReg
  regWrite : Bool
  memRead : Bool
  memWrite : Bool
  branch : Bool
  jump : Bool
  aluOp : BitVec 2
  deriving DecidableEq, Repr

/-- The disabled bundle `CTRL_OFF` (R38). -/
def Ctrl.off : Ctrl where
  regDst := .rt
  aluSrc := .reg
  memtoReg := .alu
  regWrite := false
  memRead := false
  memWrite := false
  branch := false
  jump := false
  aluOp := 0b00#2

/-- The ALU-control codes (R122). -/
inductive AluCtl where
  | add
  | sub
  | and
  | or
  | nor
  | slt
  | sltu
  | sll
  | srl
  | passA
  | mfhi
  | mflo
  | mult
  | brEq
  | brNe
  | invalid
  deriving DecidableEq, Repr

/-- The fetch-to-decode pipeline register `IFID` (R31). -/
structure IfId where
  valid : Bool
  instr : Word
  pc4 : Word
  deriving DecidableEq, Repr

/-- The decode-to-execute pipeline register `IDEX` (R32). -/
structure IdEx where
  valid : Bool
  ctrl : Ctrl
  aluctl : AluCtl
  opcode : BitVec 6
  funct : BitVec 6
  rs : RegIdx
  rt : RegIdx
  rd : RegIdx
  shamt : BitVec 5
  imm : Word
  target : BitVec 26
  rsVal : Word
  rtVal : Word
  pc4 : Word
  deriving DecidableEq, Repr

/-- The execute-to-memory pipeline register `EXMEM` (R33). -/
structure ExMem where
  valid : Bool
  ctrl : Ctrl
  opcode : BitVec 6
  funct : BitVec 6
  aluResult : Word
  zero : Bool
  brTarget : Word
  jmpTarget : Word
  storeData : Word
  writeReg : RegIdx
  pc4 : Word
  link : Word
  deriving DecidableEq, Repr

/-- The memory-to-write-back pipeline register `MEMWB` (R34). -/
structure MemWb where
  valid : Bool
  ctrl : Ctrl
  opcode : BitVec 6
  aluResult : Word
  memData : Word
  link : Word
  writeReg : RegIdx
  deriving DecidableEq, Repr

/-- `BUBBLE` in `IFID` (R35). -/
def IfId.bubble : IfId where
  valid := false
  instr := 0#32
  pc4 := 0#32

/-- `BUBBLE` in `IDEX` (R35): `aluctl = ADD`. -/
def IdEx.bubble : IdEx where
  valid := false
  ctrl := .off
  aluctl := .add
  opcode := 0#6
  funct := 0#6
  rs := 0#5
  rt := 0#5
  rd := 0#5
  shamt := 0#5
  imm := 0#32
  target := 0#26
  rsVal := 0#32
  rtVal := 0#32
  pc4 := 0#32

/-- `BUBBLE` in `EXMEM` (R35). -/
def ExMem.bubble : ExMem where
  valid := false
  ctrl := .off
  opcode := 0#6
  funct := 0#6
  aluResult := 0#32
  zero := false
  brTarget := 0#32
  jmpTarget := 0#32
  storeData := 0#32
  writeReg := 0#5
  pc4 := 0#32
  link := 0#32

/-- `BUBBLE` in `MEMWB` (R35). -/
def MemWb.bubble : MemWb where
  valid := false
  ctrl := .off
  opcode := 0#6
  aluResult := 0#32
  memData := 0#32
  link := 0#32
  writeReg := 0#5

/-- A double-buffered pipeline register: the current copy and the next copy (R30). -/
structure PipeReg (α : Type) where
  cur : α
  nxt : α
  deriving DecidableEq, Repr

/-- Both copies holding one value: what a commit leaves (R283) and, for `BUBBLE`, what reset leaves (R37). -/
def PipeReg.both {α : Type} (v : α) : PipeReg α where
  cur := v
  nxt := v

/-- The eight fatal causes (R400). -/
inductive Cause where
  | invalidAluControl
  | memOutOfRange
  | regWriteOutOfRange
  | misalignedData
  | fetchOutOfRange
  | fetchMisaligned
  | predictionQueueUnderflow
  | loadUseHazard
  deriving DecidableEq, Repr

/-- A cause's code (R400). -/
def Cause.code : Cause → Nat
  | .invalidAluControl => 1
  | .memOutOfRange => 2
  | .regWriteOutOfRange => 3
  | .misalignedData => 4
  | .fetchOutOfRange => 5
  | .fetchMisaligned => 6
  | .predictionQueueUnderflow => 7
  | .loadUseHazard => 8

/-- `Fatal(cause, info)` as a phase raises it (R11, R401). -/
structure Fatal where
  cause : Cause
  info : Word
  deriving DecidableEq, Repr

/-- What a failed run reports: the cause, the failing cycle's number and the info (R45, R401). -/
structure Failure where
  cause : Cause
  cycle : Nat
  info : Word
  deriving DecidableEq, Repr

/-- The run's status (R45). -/
inductive Status where
  | running
  | done
  | failed (f : Failure)
  deriving DecidableEq, Repr

/-- The register file: 32 registers of 32 bits (R20). -/
abbrev RegFile := Vector Word 32

/-- The memory array as its nonzero bytes, addresses strictly rising: an unlisted address reads 0, as every
byte outside the image does at reset (R60, R61). -/
abbrev Memory := List Host.Cell

/-- The whole machine. -/
structure State where
  /-- The configuration of the run. The MODEL's own field: the spec holds it beside the state and constant
  (R46, D37); no cycle changes it. -/
  cfg : Config
  /-- The general registers (R20). -/
  regs : RegFile
  /-- HI (R25). -/
  hi : Word
  /-- LO (R25). -/
  lo : Word
  /-- The program counter: the address the next cycle's fetch reads (R26). -/
  pc : Word
  /-- The memory array (R60). -/
  mem : Memory
  ifid : PipeReg IfId
  idex : PipeReg IdEx
  exmem : PipeReg ExMem
  memwb : PipeReg MemWb
  /-- The history under ONE_BIT (R40); under the other modes nothing reads or writes it. -/
  h1 : OneBit
  /-- The history under TWO_BIT (R40); under the other modes nothing reads or writes it. -/
  h2 : TwoBit
  /-- The outstanding-prediction queue `PQ`, oldest first (R41). -/
  pq : List Bool
  /-- `halt_seen` (R44). -/
  haltSeen : Bool
  /-- `status` (R45). -/
  status : Status
  /-- Completed cycles (R47). -/
  cycles : Nat
  nR : Nat
  nI : Nat
  nJ : Nat
  hits : Nat
  misses : Nat
  memAccesses : Nat
  deriving DecidableEq, Repr

/-- Why no cycle runs: `DONE` and `FAILED` are final, "no cycle step applies to them" (R45). -/
inductive Fault where
  /-- Raised by `step` and `exec` when `status = DONE`. Safe: the hardware runs no further cycle either. -/
  | runDone
  /-- Raised by `step` and `exec` when `status = FAILED(f)`. Safe: the hardware runs no further cycle either. -/
  | runFailed (f : Failure)
  deriving DecidableEq, Repr

/-- Why the machine refuses. -/
inductive Refusal where
  /-- The form of an arm whose instruction has no meaning yet; no arm is in that case. Safe. -/
  | notModelled (mnemonic : String)
  /-- Raised by `boot`: the host refuses this configuration before reset (R455). Safe: no run exists. -/
  | configuration
  /-- Raised by `boot`: the host refuses this image before reset (R61, R455). Safe: no run exists. -/
  | image
  deriving DecidableEq, Repr

/-- The reset values of the general registers (R24). -/
def RegFile.init (c : Config) : RegFile :=
  ((Vector.replicate 32 0#32).set 29 c.spInit).set 31 c.raInit

/-- The reset state of R451 under the configuration `c`, with the memory `m`. -/
def State.resetWith (c : Config) (m : Memory) : State where
  cfg := c
  regs := RegFile.init c
  hi := 0#32
  lo := 0#32
  pc := resetPc
  mem := m
  ifid := .both .bubble
  idex := .both .bubble
  exmem := .both .bubble
  memwb := .both .bubble
  h1 := c.predInit1
  h2 := c.predInit2
  pq := []
  haltSeen := false
  status := .running
  cycles := 0
  nR := 0
  nI := 0
  nJ := 0
  hits := 0
  misses := 0
  memAccesses := 0

/-- The machine right after reset (R451) under `Config.default`, before any image is loaded: every byte of
memory is 0. -/
def State.reset : State := State.resetWith Config.default []

end Sys2Proof.Machine
end

