-- ==== Sys2Proof/Machine/Flags.lean ====
section
/-! DEFINITION. The ALU's one flag, `zero` (R153). No other flag exists: no carry, overflow, negative or
condition code. -/

namespace Sys2Proof.Machine

/-- `zero = (result = 0)`, the flag of every operation but `MULT` and the branch forms (R142 to R149). -/
def zeroOfResult (result : Word) : Bool := result == 0#32

/-- The flag of `BR_EQ`: the branch condition `a = b` (R152). -/
def zeroOfEq (a b : Word) : Bool := a == b

/-- The flag of `BR_NE`: the branch condition `a ≠ b` (R152). -/
def zeroOfNe (a b : Word) : Bool := a != b

/-- The flag of `MULT`, whose `result` is 0 (R151). -/
def zeroOfMult : Bool := true

end Sys2Proof.Machine
end

