-- ==== Sys2Proof/Machine/Alu.lean ====
section
/-! DEFINITION. The arithmetic/logic unit (`41_alu.md`). -/

namespace Sys2Proof.Machine

/-- What the ALU returns: `(result, zero, hilo)` (R140). -/
structure AluOut where
  result : Word
  zero : Bool
  hilo : Option (Word × Word)
  deriving DecidableEq, Repr

/-- An operation that returns no HI/LO pair and whose flag says whether its result is 0 (R142 to R149). -/
def plainOut (result : Word) : AluOut where
  result := result
  zero := zeroOfResult result
  hilo := none

/-- The result of `SLT` under each SLT_MODE (R145). -/
def sltResult (mode : SltMode) (a b : Word) : Word :=
  match mode with
  | .trueCompare => if a.toInt < b.toInt then 1#32 else 0#32
  | .signOfDiff => if (a - b).msb then 1#32 else 0#32

/-- The result of `SLTU` (R146). -/
def sltuResult (a b : Word) : Word := if a.toNat < b.toNat then 1#32 else 0#32

/-- The exact signed product as a 64-bit two's-complement value (R151). -/
def product (a b : Word) : BitVec 64 := BitVec.ofInt 64 (a.toInt * b.toInt)

/-- `alu(ctl, a, b, shamt, hi, lo)` (R140, R142 to R152). It is never applied to `INVALID` (R154). -/
def alu (mode : SltMode) (ctl : AluCtl) (a b : Word) (shamt : BitVec 5) (hi lo : Word) : Option AluOut :=
  match ctl with
  | .add => some (plainOut (a + b))
  | .sub => some (plainOut (a - b))
  | .and => some (plainOut (a &&& b))
  | .or => some (plainOut (a ||| b))
  | .nor => some (plainOut (~~~(a ||| b)))
  | .slt => some (plainOut (sltResult mode a b))
  | .sltu => some (plainOut (sltuResult a b))
  | .sll => some (plainOut (b <<< shamt.toNat))
  | .srl => some (plainOut (b >>> shamt.toNat))
  | .passA => some (plainOut a)
  | .mfhi => some (plainOut hi)
  | .mflo => some (plainOut lo)
  | .mult =>
    some { result := 0#32
           zero := zeroOfMult
           hilo := some ((product a b).extractLsb' 32 32, (product a b).extractLsb' 0 32) }
  | .brEq => some { result := a - b, zero := zeroOfEq a b, hilo := none }
  | .brNe => some { result := a - b, zero := zeroOfNe a b, hilo := none }
  | .invalid => none

end Sys2Proof.Machine
end

