-- ==== Sys2Proof/Syntax.lean ====
section
/-! DEFINITION. The 23 instructions of R3, one constructor per row of `spec/opcode_table.json`, with the
operands in the order of the assembler forms of R96. A field an instruction does not use is no operand
(R94). -/

namespace Sys2Proof

/-- The admitted instruction set (R3). -/
inductive Instr where
  | add (rd rs rt : RegIdx)
  | addu (rd rs rt : RegIdx)
  | sub (rd rs rt : RegIdx)
  | subu (rd rs rt : RegIdx)
  | and (rd rs rt : RegIdx)
  | or (rd rs rt : RegIdx)
  | nor (rd rs rt : RegIdx)
  | slt (rd rs rt : RegIdx)
  | sltu (rd rs rt : RegIdx)
  | sll (rd rt : RegIdx) (shamt : BitVec 5)
  | srl (rd rt : RegIdx) (shamt : BitVec 5)
  | mult (rs rt : RegIdx)
  | mfhi (rd : RegIdx)
  | mflo (rd : RegIdx)
  | jr (rs : RegIdx)
  | addi (rt rs : RegIdx) (imm : BitVec 16)
  | addiu (rt rs : RegIdx) (imm : BitVec 16)
  | lw (rt rs : RegIdx) (imm : BitVec 16)
  | sw (rt rs : RegIdx) (imm : BitVec 16)
  | beq (rs rt : RegIdx) (imm : BitVec 16)
  | bne (rs rt : RegIdx) (imm : BitVec 16)
  | j (target : BitVec 26)
  | jal (target : BitVec 26)
  deriving DecidableEq, Repr

end Sys2Proof
end

