-- ==== Sys2Proof/WellFormed.lean ====
section
/-! DEFINITION. What makes an instruction, a configuration and an image admissible. -/

namespace Sys2Proof

/-- Every term of `Instr` is an instruction of the machine: each operand's type is exactly as wide as its
field (R81), and no field value of R89 and R90 is reserved (R94, R95), so nothing is left to check. -/
def Instr.wellFormed : Instr → Bool
  | .add _ _ _ | .addu _ _ _ | .sub _ _ _ | .subu _ _ _ | .and _ _ _ | .or _ _ _ | .nor _ _ _ => true
  | .slt _ _ _ | .sltu _ _ _ | .sll _ _ _ | .srl _ _ _ | .mult _ _ | .mfhi _ | .mflo _ | .jr _ => true
  | .addi _ _ _ | .addiu _ _ _ | .lw _ _ _ | .sw _ _ _ | .beq _ _ _ | .bne _ _ _ | .j _ | .jal _ => true

/-- The configurations the host does not refuse (R455): MEM_SIZE is a nonzero multiple of 4 of at most 2^32,
SP_INIT ≤ MEM_SIZE, and SENTINEL mod 4 ≠ 0. -/
def Config.wellFormed (c : Config) : Bool :=
  c.memSize != 0 && c.memSize % 4 == 0 && decide (c.memSize ≤ 2 ^ 32)
    && decide (c.spInit.toNat ≤ c.memSize) && c.sentinel.toNat % 4 != 0

/-- The images the host does not refuse (R61, R455): a multiple of 4 bytes that fits the array. -/
def imageFits (c : Config) (img : List Byte) : Bool :=
  img.length % 4 == 0 && decide (imageBase + img.length ≤ c.memSize)

end Sys2Proof
end

