-- ==== Sys2Proof/Decode.lean ====
section
/-! DEFINITION. The instruction encoding: cutting the fields of a word (R81, R85), the opcode and function
maps (R89, R90), and the encoder written from the same maps and the formats of R82 to R84. -/

namespace Sys2Proof

/-- Bits [31:26] (R81). -/
def opcodeOf (w : Word) : BitVec 6 := w.extractLsb' 26 6
/-- Bits [25:21] (R81). -/
def rsOf (w : Word) : RegIdx := w.extractLsb' 21 5
/-- Bits [20:16] (R81). -/
def rtOf (w : Word) : RegIdx := w.extractLsb' 16 5
/-- Bits [15:11] (R81). -/
def rdOf (w : Word) : RegIdx := w.extractLsb' 11 5
/-- Bits [10:6] (R81). -/
def shamtOf (w : Word) : BitVec 5 := w.extractLsb' 6 5
/-- Bits [5:0] (R81). -/
def functOf (w : Word) : BitVec 6 := w.extractLsb' 0 6
/-- Bits [15:0] (R81). -/
def immOf (w : Word) : BitVec 16 := w.extractLsb' 0 16
/-- Bits [25:0] (R81). -/
def targetOf (w : Word) : BitVec 26 := w.extractLsb' 0 26

/-- `imm32 = sext_32(instr[15:0])` (R85). -/
def sext32 (imm : BitVec 16) : Word := imm.signExtend 32

/-- The fields the decoder cuts from every word (R110). -/
structure Fields where
  opcode : BitVec 6
  funct : BitVec 6
  rs : RegIdx
  rt : RegIdx
  rd : RegIdx
  shamt : BitVec 5
  imm32 : Word
  target : BitVec 26
  deriving DecidableEq, Repr

/-- The field cut of R81 and R85, the same for every format. -/
def fieldsOf (w : Word) : Fields where
  opcode := opcodeOf w
  funct := functOf w
  rs := rsOf w
  rt := rtOf w
  rd := rdOf w
  shamt := shamtOf w
  imm32 := sext32 (immOf w)
  target := targetOf w

/-- What a string of bytes is, as an instruction. A word that is none of the 23 is named by the part of it
that R89 or R90 does not list; the pipeline still runs it (R92, R93). -/
inductive Decoded where
  /-- one of the instructions of R3 -/
  | instr (i : Instr)
  /-- an opcode outside R89: a no-op (R92) -/
  | unknownOpcode (opcode : BitVec 6)
  /-- opcode 0 with a function code outside R90: fatal in the decode stage (R93) -/
  | unknownFunct (funct : BitVec 6)
  /-- not four bytes: no instruction word (R80) -/
  | notAWord (length : Nat)
  deriving DecidableEq, Repr

/-- The function map of opcode 0 (R90). -/
def decodeSpecial (w : Word) : Decoded :=
  let f := functOf w
  if f = 0x00#6 then .instr (.sll (rdOf w) (rtOf w) (shamtOf w))
  else if f = 0x02#6 then .instr (.srl (rdOf w) (rtOf w) (shamtOf w))
  else if f = 0x08#6 then .instr (.jr (rsOf w))
  else if f = 0x10#6 then .instr (.mfhi (rdOf w))
  else if f = 0x12#6 then .instr (.mflo (rdOf w))
  else if f = 0x18#6 then .instr (.mult (rsOf w) (rtOf w))
  else if f = 0x20#6 then .instr (.add (rdOf w) (rsOf w) (rtOf w))
  else if f = 0x21#6 then .instr (.addu (rdOf w) (rsOf w) (rtOf w))
  else if f = 0x22#6 then .instr (.sub (rdOf w) (rsOf w) (rtOf w))
  else if f = 0x23#6 then .instr (.subu (rdOf w) (rsOf w) (rtOf w))
  else if f = 0x24#6 then .instr (.and (rdOf w) (rsOf w) (rtOf w))
  else if f = 0x25#6 then .instr (.or (rdOf w) (rsOf w) (rtOf w))
  else if f = 0x27#6 then .instr (.nor (rdOf w) (rsOf w) (rtOf w))
  else if f = 0x2A#6 then .instr (.slt (rdOf w) (rsOf w) (rtOf w))
  else if f = 0x2B#6 then .instr (.sltu (rdOf w) (rsOf w) (rtOf w))
  else .unknownFunct f

/-- The opcode map (R89). -/
def decode (w : Word) : Decoded :=
  let op := opcodeOf w
  if op = 0x00#6 then decodeSpecial w
  else if op = 0x02#6 then .instr (.j (targetOf w))
  else if op = 0x03#6 then .instr (.jal (targetOf w))
  else if op = 0x04#6 then .instr (.beq (rsOf w) (rtOf w) (immOf w))
  else if op = 0x05#6 then .instr (.bne (rsOf w) (rtOf w) (immOf w))
  else if op = 0x08#6 then .instr (.addi (rtOf w) (rsOf w) (immOf w))
  else if op = 0x09#6 then .instr (.addiu (rtOf w) (rsOf w) (immOf w))
  else if op = 0x23#6 then .instr (.lw (rtOf w) (rsOf w) (immOf w))
  else if op = 0x2B#6 then .instr (.sw (rtOf w) (rsOf w) (immOf w))
  else .unknownOpcode op

/-- Four bytes as a word, the first byte in bits [31:24] (R62). -/
def wordOfBytes (b0 b1 b2 b3 : Byte) : Word := b0 ++ b1 ++ b2 ++ b3

/-- Byte `k` of a word in memory order: byte 0 is bits [31:24] (R62, R63). -/
def byteOfWord (w : Word) : Nat → Byte
  | 0 => w.extractLsb' 24 8
  | 1 => w.extractLsb' 16 8
  | 2 => w.extractLsb' 8 8
  | _ => w.extractLsb' 0 8

/-- A word's four bytes in memory order (R63). -/
def bytesOfWord (w : Word) : List Byte := [byteOfWord w 0, byteOfWord w 1, byteOfWord w 2, byteOfWord w 3]

/-- Decoding of any bytes: an instruction is exactly one 32-bit word, stored big-endian (R62, R80). -/
def decodeBytes : List Byte → Decoded
  | [b0, b1, b2, b3] => decode (wordOfBytes b0 b1 b2 b3)
  | bs => .notAWord bs.length

/-- The bytes, in memory order, of the instruction whose low `nbits` bits are those of `w` and whose other
bits are 0. -/
def tableBytes (nbits w : Nat) : List Byte := bytesOfWord (BitVec.ofNat 32 (w % 2 ^ nbits))

/-- The instruction the decoder reads from an instruction whose bits are `w`. -/
def decodeTableWord (nbits w : Nat) : Option Instr :=
  match decodeBytes (tableBytes nbits w) with
  | .instr i => some i
  | _ => none

/-- The R format (R82), opcode 0. -/
def rWord (funct : BitVec 6) (rs rt rd : RegIdx) (shamt : BitVec 5) : Word :=
  0#6 ++ rs ++ rt ++ rd ++ shamt ++ funct

/-- The I format (R83). -/
def iWord (opcode : BitVec 6) (rs rt : RegIdx) (imm : BitVec 16) : Word :=
  opcode ++ rs ++ rt ++ imm

/-- The J format (R84). -/
def jWord (opcode : BitVec 6) (target : BitVec 26) : Word :=
  opcode ++ target

/-- The word of an instruction, its unused fields 0 (R82 to R84, R89, R90). -/
def encode : Instr → Word
  | .add rd rs rt => rWord 0x20#6 rs rt rd 0#5
  | .addu rd rs rt => rWord 0x21#6 rs rt rd 0#5
  | .sub rd rs rt => rWord 0x22#6 rs rt rd 0#5
  | .subu rd rs rt => rWord 0x23#6 rs rt rd 0#5
  | .and rd rs rt => rWord 0x24#6 rs rt rd 0#5
  | .or rd rs rt => rWord 0x25#6 rs rt rd 0#5
  | .nor rd rs rt => rWord 0x27#6 rs rt rd 0#5
  | .slt rd rs rt => rWord 0x2A#6 rs rt rd 0#5
  | .sltu rd rs rt => rWord 0x2B#6 rs rt rd 0#5
  | .sll rd rt shamt => rWord 0x00#6 0#5 rt rd shamt
  | .srl rd rt shamt => rWord 0x02#6 0#5 rt rd shamt
  | .mult rs rt => rWord 0x18#6 rs rt 0#5 0#5
  | .mfhi rd => rWord 0x10#6 0#5 0#5 rd 0#5
  | .mflo rd => rWord 0x12#6 0#5 0#5 rd 0#5
  | .jr rs => rWord 0x08#6 rs 0#5 0#5 0#5
  | .addi rt rs imm => iWord 0x08#6 rs rt imm
  | .addiu rt rs imm => iWord 0x09#6 rs rt imm
  | .lw rt rs imm => iWord 0x23#6 rs rt imm
  | .sw rt rs imm => iWord 0x2B#6 rs rt imm
  | .beq rs rt imm => iWord 0x04#6 rs rt imm
  | .bne rs rt imm => iWord 0x05#6 rs rt imm
  | .j target => jWord 0x02#6 target
  | .jal target => jWord 0x03#6 target

end Sys2Proof
end

