-- ==== Sys2Proof/Machine/Control.lean ====
section
/-! DEFINITION. The instruction decoder and control-signal generator (`40_decoder.md`): the bundle of every
word, its destination and read set, and the ALU-control code. -/

namespace Sys2Proof.Machine

/-- The R-type bundle of opcode 0; `mult` drops the register write, `jr` drops it and jumps (R111). -/
def rTypeCtrl (funct : BitVec 6) : Ctrl :=
  { regDst := .rd
    aluSrc := .reg
    memtoReg := .alu
    regWrite := !(funct == 0x18#6 || funct == 0x08#6)
    memRead := false
    memWrite := false
    branch := false
    jump := funct == 0x08#6
    aluOp := 0b10#2 }

/-- The bundle of a word, from its opcode and function code (R111 to R113). -/
def controlOf (opcode funct : BitVec 6) : Ctrl :=
  if opcode = 0x00#6 then rTypeCtrl funct
  else if opcode = 0x08#6 then { Ctrl.off with aluSrc := .imm, regWrite := true }
  else if opcode = 0x09#6 then { Ctrl.off with aluSrc := .imm, regWrite := true }
  else if opcode = 0x23#6 then
    { Ctrl.off with aluSrc := .imm, memtoReg := .mem, regWrite := true, memRead := true }
  else if opcode = 0x2B#6 then { Ctrl.off with aluSrc := .imm, memWrite := true }
  else if opcode = 0x04#6 then { Ctrl.off with branch := true, aluOp := 0b01#2 }
  else if opcode = 0x05#6 then { Ctrl.off with branch := true, aluOp := 0b01#2 }
  else if opcode = 0x02#6 then { Ctrl.off with jump := true }
  else if opcode = 0x03#6 then
    { Ctrl.off with regDst := .ra, memtoReg := .link, regWrite := true, jump := true }
  else Ctrl.off

/-- The decoder of R110: a pure, total function of the word. -/
def decoder (w : Word) : Ctrl × Fields := (controlOf (opcodeOf w) (functOf w), fieldsOf w)

/-- The ALU-control code of ALUOp 10 (R122). -/
def aluctlOfFunct (funct : BitVec 6) : AluCtl :=
  if funct = 0x20#6 then .add
  else if funct = 0x21#6 then .add
  else if funct = 0x22#6 then .sub
  else if funct = 0x23#6 then .sub
  else if funct = 0x24#6 then .and
  else if funct = 0x25#6 then .or
  else if funct = 0x27#6 then .nor
  else if funct = 0x2A#6 then .slt
  else if funct = 0x2B#6 then .sltu
  else if funct = 0x00#6 then .sll
  else if funct = 0x02#6 then .srl
  else if funct = 0x08#6 then .passA
  else if funct = 0x10#6 then .mfhi
  else if funct = 0x12#6 then .mflo
  else if funct = 0x18#6 then .mult
  else .invalid

/-- `aluctl(ALUOp, funct, opcode)` (R122). -/
def aluControl (aluOp : BitVec 2) (funct opcode : BitVec 6) : AluCtl :=
  if aluOp = 0b00#2 then .add
  else if aluOp = 0b01#2 then (if opcode = 0x05#6 then .brNe else .brEq)
  else if aluOp = 0b10#2 then aluctlOfFunct funct
  else .invalid

/-- The destination index of a slot (R114). -/
def destOf (ctrl : Ctrl) (rt rd : RegIdx) : RegIdx :=
  match ctrl.regDst with
  | .rt => rt
  | .rd => rd
  | .ra => 31#5

/-- Whether the instruction uses its rs field as a source (R120). -/
def usesRs (opcode funct : BitVec 6) : Bool :=
  if opcode = 0x00#6 then !(funct == 0x00#6 || funct == 0x02#6 || funct == 0x10#6 || funct == 0x12#6)
  else opcode == 0x08#6 || opcode == 0x09#6 || opcode == 0x23#6 || opcode == 0x2B#6 || opcode == 0x04#6
    || opcode == 0x05#6

/-- Whether the instruction uses its rt field as a source (R120). -/
def usesRt (opcode funct : BitVec 6) : Bool :=
  if opcode = 0x00#6 then !(funct == 0x10#6 || funct == 0x12#6 || funct == 0x08#6)
  else opcode == 0x2B#6 || opcode == 0x04#6 || opcode == 0x05#6

/-- The read set `reads(w)` (R120), from the fields R311 evaluates it on; index 0 is removed. -/
def readSet (opcode funct : BitVec 6) (rs rt : RegIdx) : List RegIdx :=
  ((if usesRs opcode funct then [rs] else []) ++ (if usesRt opcode funct then [rt] else [])).filter
    (fun r => r != 0#5)

/-- `reads(w)` of a word (R120). -/
def readsOf (w : Word) : List RegIdx := readSet (opcodeOf w) (functOf w) (rsOf w) (rtOf w)

end Sys2Proof.Machine
end

