-- ==== Sys2Proof/Machine/Hazard.lean ====
section
/-! DEFINITION. The hazard detection and forwarding unit (`47_hazards.md`): the stall of phase P0 and the
forward mux of phase P7. -/

namespace Sys2Proof.Machine

/-- `IDEX` as a producer of `r`, its destination found by the peek-ahead (R114, R303). -/
def idexProduces (e : IdEx) (r : RegIdx) : Bool :=
  e.valid && e.ctrl.regWrite && destOf e.ctrl e.rt e.rd == r && r != 0#5

/-- `EXMEM` as a producer of `r` (R114, R303). -/
def exmemProduces (m : ExMem) (r : RegIdx) : Bool :=
  m.valid && m.ctrl.regWrite && m.writeReg == r && r != 0#5

/-- `MEMWB` as a producer of `r` (R114, R303). -/
def memwbProduces (w : MemWb) (r : RegIdx) : Bool :=
  w.valid && w.ctrl.regWrite && w.writeReg == r && r != 0#5

/-- The consumer's read set: the instruction in decode, none for a bubble (R304). -/
def consumerReads (f : IfId) : List RegIdx := if f.valid then readsOf f.instr else []

/-- `stall_needed` (R305): a non-load about to leave execute, or anything about to finish memory, produces a
register the consumer reads. -/
def stallNeeded (f : IfId) (e : IdEx) (m : ExMem) : Bool :=
  (consumerReads f).any (fun r => (idexProduces e r && !e.ctrl.memRead) || exmemProduces m r)

/-- Phase P0: `stall <- (POLICY = STALL) and stall_needed` (R270, R305). -/
def stallOf (s : State) : Bool :=
  s.cfg.policy == .stall && stallNeeded s.ifid.cur s.idex.cur s.exmem.cur

/-- The load-use case of R307, for a decode that runs: a load in execute produces a register the consumer
reads. -/
def loadUse (e : IdEx) (f : IfId) : Bool :=
  e.ctrl.memRead && (consumerReads f).any (idexProduces e)

/-- The value an execute-stage producer forwards (R312). -/
def exmemValue (x : ExMem) : Word :=
  match x.ctrl.memtoReg with
  | .link => x.link
  | .alu => x.aluResult
  | .mem => x.aluResult

/-- The write-back mux of ALU result, loaded word and link address (R272, R312). -/
def memwbValue (y : MemWb) : Word :=
  match y.ctrl.memtoReg with
  | .alu => y.aluResult
  | .mem => y.memData
  | .link => y.link

/-- The value the mux gives operand `r`, whose register-file read is `v`: the execute-stage producer before
the memory-stage one, a load in execute being no source (R312). -/
def forwardOperand (x : ExMem) (y : MemWb) (r : RegIdx) (v : Word) : Word :=
  if exmemProduces x r && x.ctrl.memtoReg != .mem then exmemValue x
  else if memwbProduces y r then memwbValue y
  else v

/-- Phase P7 under FORWARD: the operand fields the decoded slot reads are replaced (R311, R312). Whether a
field is read is asked of the field, so the `rt_val` of an `addi` is never replaced, even where `rt = rs`
(log entry 12); an operand register 0 has no producer. -/
def forwardInto (x : ExMem) (y : MemWb) (d : IdEx) : IdEx :=
  { d with
    rsVal := if usesRs d.opcode d.funct then forwardOperand x y d.rs d.rsVal else d.rsVal
    rtVal := if usesRt d.opcode d.funct then forwardOperand x y d.rt d.rtVal else d.rtVal }

end Sys2Proof.Machine
end

