-- ==== Sys2Proof/Machine/Operands.lean ====
section
/-! DEFINITION. The operand forms: the second ALU operand, the branch and jump targets, the link value. The
one addressing mode, base plus signed displacement, is the ALU's `ADD` of `rs_val` and the immediate (R214). -/

namespace Sys2Proof.Machine

/-- Operand B (R88, R141). -/
def aluOperandB (src : AluSrc) (imm rtVal : Word) : Word :=
  match src with
  | .imm => imm
  | .reg => rtVal

/-- `br_target = pc4 + (imm32 << 2)`, modulo 2^32 (R86). -/
def branchTarget (pc4 imm32 : Word) : Word := pc4 + (imm32 <<< 2)

/-- `jmp_target = {pc4[31:28], target, 0b00}` (R87). -/
def jumpTarget (pc4 : Word) (target : BitVec 26) : Word :=
  pc4.extractLsb' 28 4 ++ target ++ 0b00#2

/-- `link = (pc4 + JAL_LINK_OFFSET − 4) mod 2^32` (R232, R278). -/
def linkValue (c : Config) (pc4 : Word) : Word := pc4 + c.linkOffset.toWord - 4#32

end Sys2Proof.Machine
end

