-- ==== Sys2Proof/Machine/Ops.lean ====
section
/-! DEFINITION. The named operations over registers and memory (R11), loading an image (R61, R450), and
raising a fatal error (R401), the machine's only response to an error. There is no return from one (R410). -/

namespace Sys2Proof.Machine

/-- `x[i]`: register 0 reads as zero on every read (R11, R21). -/
def regRead (f : RegFile) (i : RegIdx) : Word :=
  if i = 0#5 then 0#32 else f[i.toNat]'i.isLt

/-- `x[i] <- v`: a write that names register 0 stores nothing (R11, R21). -/
def regWrite (f : RegFile) (i : RegIdx) (v : Word) : RegFile :=
  if i = 0#5 then f else f.set i.toNat v i.isLt

/-- The byte at an address; an unlisted address reads 0 (R60, R61). -/
def byteRead : Memory → Nat → Byte
  | [], _ => 0#8
  | (k, v) :: m, a => if k = a then v else byteRead m a

/-- Writing one byte, keeping the canonical form: addresses strictly rising, no zero byte listed. -/
def byteWrite : Memory → Nat → Byte → Memory
  | [], a, b => if b = 0#8 then [] else [(a, b)]
  | (k, v) :: m, a, b =>
    if a < k then (if b = 0#8 then (k, v) :: m else (a, b) :: (k, v) :: m)
    else if a = k then (if b = 0#8 then m else (a, b) :: m)
    else (k, v) :: byteWrite m a b

/-- Writing bytes at consecutive addresses, the first at `a`. -/
def bytesWrite : Memory → Nat → List Byte → Memory
  | m, _, [] => m
  | m, a, b :: bs => bytesWrite (byteWrite m a b) (a + 1) bs

/-- `MemRead(a, 4)`: the byte at the lowest address is bits [31:24] (R62). -/
def wordRead (m : Memory) (a : Word) : Word :=
  wordOfBytes (byteRead m a.toNat) (byteRead m (a.toNat + 1)) (byteRead m (a.toNat + 2))
    (byteRead m (a.toNat + 3))

/-- `MemWrite(a, 4, v)` (R63). -/
def wordWrite (m : Memory) (a : Word) (v : Word) : Memory :=
  bytesWrite m a.toNat (bytesOfWord v)

/-- `a ≤ MEM_SIZE − 4`, the range check of a data access (R64) and of a fetch (R66). -/
def inRange (c : Config) (a : Word) : Bool := decide (a.toNat + 4 ≤ c.memSize)

/-- `a mod 4 = 0` (R65, R66). -/
def aligned (a : Word) : Bool := a.toNat % 4 == 0

/-- The canonical form of memory from address `lo` on: addresses strictly rising, no byte equal to what an
unlisted address reads as. -/
def memWfFrom (lo : Nat) : Memory → Bool
  | [] => true
  | (k, v) :: m => decide (lo ≤ k) && v != 0#8 && memWfFrom (k + 1) m

/-- The canonical form of memory. -/
def Memory.wf (m : Memory) : Bool := memWfFrom 0 m

/-- Every listed address is below `n`: the array has `n` bytes (R60). -/
def memBelow (n : Nat) (m : Memory) : Bool := m.all (fun c => decide (c.1 < n))

/-- Raising `Fatal(cause, info)` in the cycle that starts in `s`, numbered `cycles + 1` (R401, R284): the
cycle's commit does not happen and `status <- FAILED(cause, t, info)`. What the failing cycle's earlier
phases did is dropped: DESIGN CHOICE, the state after a failure "is not an observation" (log entry 5). -/
def State.fail (s : State) (f : Fatal) : State :=
  { s with status := .failed { cause := f.cause, cycle := s.cycles + 1, info := f.info } }

/-- Reset with the image loaded at IMAGE_BASE and every other byte 0 (R61, R450); what the host refuses
before reset is refused here (R455). -/
def boot (c : Config) (img : List Byte) : Host.Outcome State Fault Refusal :=
  if c.wellFormed then
    if imageFits c img then .next (State.resetWith c (bytesWrite [] imageBase img))
    else .refused .image
  else .refused .configuration

end Sys2Proof.Machine
end

