-- ==== Sys2Proof/Machine/Predictor.lean ====
section
/-! DEFINITION. The branch predictor (`48_branch_predictor.md`): prediction and history update per mode. -/

namespace Sys2Proof.Machine

/-- `predict()` (R331, R333, R335): the history as it stands. -/
def predict (mode : PredMode) (h1 : OneBit) (h2 : TwoBit) : Bool :=
  match mode with
  | .staticNT => false
  | .oneBit => h1 == .t
  | .twoBit => decide (2 ≤ h2.level)

/-- One resolution's change of the 1-bit history (R334). -/
def oneBitUpdate (taken : Bool) : OneBit := if taken then .t else .nt

/-- One resolution's change of the 2-bit history, the transition table of R336. -/
def twoBitUpdate (h : TwoBit) (taken : Bool) : TwoBit :=
  match h, taken with
  | .snt, true => .wnt
  | .snt, false => .snt
  | .wnt, true => .wt
  | .wnt, false => .snt
  | .wt, true => .st
  | .wt, false => .wnt
  | .st, true => .st
  | .st, false => .wt

/-- `update(taken)` on the 1-bit history: only ONE_BIT has one (R332, R334). -/
def updateH1 (mode : PredMode) (h1 : OneBit) (taken : Bool) : OneBit :=
  match mode with
  | .oneBit => oneBitUpdate taken
  | .staticNT => h1
  | .twoBit => h1

/-- `update(taken)` on the 2-bit history: only TWO_BIT has one (R332, R336). -/
def updateH2 (mode : PredMode) (h2 : TwoBit) (taken : Bool) : TwoBit :=
  match mode with
  | .twoBit => twoBitUpdate h2 taken
  | .staticNT => h2
  | .oneBit => h2

end Sys2Proof.Machine
end

