-- ==== Sys2Proof/Machine/Stages.lean ====
section
/-! DEFINITION. The five stage drivers (`46_pipeline.md`), each a function from what R250 lets it read to
what it writes. A driver that raises a fatal error answers `.error`. -/

namespace Sys2Proof.Machine

/-- Phase P1, the write-back pre-pass: the only register-file write of a cycle (R22, R272). -/
def prePass (f : RegFile) (w : MemWb) : Except Fatal RegFile :=
  if w.valid && w.ctrl.regWrite then
    if 31 < w.writeReg.toNat then .error { cause := .regWriteOutOfRange, info := w.writeReg.zeroExtend 32 }
    else .ok (regWrite f w.writeReg (memwbValue w))
  else .ok f

/-- What fetch writes: `IFID.nxt`, the proposed next pc, the queue after its push, and `halt_seen` (R250). -/
structure FetchOut where
  ifid : IfId
  next : Word
  pq : List Bool
  haltSeen : Bool
  deriving DecidableEq, Repr

/-- `pc = SENTINEL` or `halt_seen = 1`: fetch reads nothing and checks nothing (R66, R274). -/
def fetchSuppressed (s : State) : Bool := s.pc == s.cfg.sentinel || s.haltSeen

/-- A conditional branch by its opcode (R273). -/
def isBranchWord (w : Word) : Bool := opcodeOf w == 0x04#6 || opcodeOf w == 0x05#6

/-- Phase P2, fetch; `w` is the word a read at the pc delivers (R66, R273, R274, R337). A suppressed fetch
takes precedence over a stall (R274); a stalled one holds its slot and checks nothing (R306). -/
def fetchStage (s : State) (stall : Bool) (w : Word) : Except Fatal FetchOut :=
  if fetchSuppressed s then
    .ok { ifid := .bubble, next := s.pc, pq := s.pq, haltSeen := true }
  else if stall then
    .ok { ifid := s.ifid.cur, next := s.pc, pq := s.pq, haltSeen := s.haltSeen }
  else if !inRange s.cfg s.pc then .error { cause := .fetchOutOfRange, info := s.pc }
  else if !aligned s.pc then .error { cause := .fetchMisaligned, info := s.pc }
  else
    let pc4 := s.pc + 4#32
    let slot : IfId := { valid := true, instr := w, pc4 := pc4 }
    if isBranchWord w then
      let p := predict s.cfg.predMode s.h1 s.h2
      .ok { ifid := slot
            next := if p then branchTarget pc4 (sext32 (immOf w)) else pc4
            pq := s.pq ++ [p]
            haltSeen := s.haltSeen }
    else .ok { ifid := slot, next := pc4, pq := s.pq, haltSeen := s.haltSeen }

/-- The slot decode writes for a valid word (R276). -/
def decodedSlot (regs : RegFile) (f : IfId) : IdEx :=
  let out := decoder f.instr
  { valid := true
    ctrl := out.1
    aluctl := aluControl out.1.aluOp out.2.funct out.2.opcode
    opcode := out.2.opcode
    funct := out.2.funct
    rs := out.2.rs
    rt := out.2.rt
    rd := out.2.rd
    shamt := out.2.shamt
    imm := out.2.imm32
    target := out.2.target
    rsVal := regRead regs out.2.rs
    rtVal := regRead regs out.2.rt
    pc4 := f.pc4 }

/-- Phase P3, decode, on the register file after the pre-pass (R123, R124, R276, R307). -/
def decodeStage (c : Config) (regs : RegFile) (f : IfId) (e : IdEx) (stall : Bool) : Except Fatal IdEx :=
  if !f.valid || stall then .ok .bubble
  else if (decodedSlot regs f).aluctl = .invalid then
    .error { cause := .invalidAluControl, info := f.instr }
  else if c.loadUseMode == .fault && loadUse e f then
    .error { cause := .loadUseHazard, info := f.instr }
  else .ok (decodedSlot regs f)

/-- The slot execute writes, given what the ALU answers (R277, R278). -/
def executedSlot (c : Config) (e : IdEx) (out : AluOut) : ExMem :=
  { valid := true
    ctrl := e.ctrl
    opcode := e.opcode
    funct := e.funct
    aluResult := out.result
    zero := out.zero
    brTarget := branchTarget e.pc4 e.imm
    jmpTarget := jumpTarget e.pc4 e.target
    storeData := e.rtVal
    writeReg := destOf e.ctrl e.rt e.rd
    pc4 := e.pc4
    link := linkValue c e.pc4 }

/-- Phase P4, execute: `EXMEM.nxt` and `hilo_pending` (R277, R278). The error stands for an `INVALID` code
in execute, which decode never lets through (R154, R413); its info is the slot's word. -/
def executeStage (c : Config) (e : IdEx) (hi lo : Word) : Except Fatal (ExMem × Option (Word × Word)) :=
  if !e.valid then .ok (.bubble, none)
  else
    match alu c.sltMode e.aluctl e.rsVal (aluOperandB e.ctrl.aluSrc e.imm e.rtVal) e.shamt hi lo with
    | none => .error { cause := .invalidAluControl, info := e.opcode ++ e.target }
    | some out => .ok (executedSlot c e out, out.hilo)

/-- The checks of a data access, the range before the alignment (R64, R65, R211, R213). -/
def dataCheck (c : Config) (ea : Word) : Except Fatal Unit :=
  if !inRange c ea then .error { cause := .memOutOfRange, info := ea }
  else if !aligned ea then .error { cause := .misalignedData, info := ea }
  else .ok ()

/-- The predictor's state as the memory stage reads and writes it (R250). -/
structure PredState where
  h1 : OneBit
  h2 : TwoBit
  pq : List Bool
  hits : Nat
  misses : Nat
  deriving DecidableEq, Repr

/-- Validation of a resolved branch: one entry popped, the history updated, a hit or a miss counted, and on
a miss a redirect requested (R338, R340, R341). -/
def validate (mode : PredMode) (p : PredState) (taken : Bool) (correctNext pc4 : Word) :
    Except Fatal (PredState × Option Word) :=
  match p.pq with
  | [] => .error { cause := .predictionQueueUnderflow, info := pc4 - 4#32 }
  | head :: rest =>
    let p' := { p with h1 := updateH1 mode p.h1 taken, h2 := updateH2 mode p.h2 taken, pq := rest }
    if head == taken then .ok ({ p' with hits := p.hits + 1 }, none)
    else .ok ({ p' with misses := p.misses + 1 }, some correctNext)

/-- What the memory stage writes (R250). -/
structure MemOut where
  memwb : MemWb
  mem : Memory
  memAccesses : Nat
  pred : PredState
  redirect : Option Word
  deriving DecidableEq, Repr

/-- The slot memory writes (R279). -/
def accessedSlot (m : ExMem) (data : Word) : MemWb :=
  { valid := true
    ctrl := m.ctrl
    opcode := m.opcode
    aluResult := m.aluResult
    memData := data
    link := m.link
    writeReg := m.writeReg }

/-- The target of a resolved jump: the ALU result for `jr`, the jump target for `j` and `jal` (R241). -/
def jumpDestination (m : ExMem) : Word := if m.opcode = 0x00#6 then m.aluResult else m.jmpTarget

/-- `correct_next` of a resolved branch (R227). -/
def correctNext (m : ExMem) : Word := if m.zero then m.brTarget else m.pc4

/-- The address checks of a memory slot: only a load or a store accesses memory (R211, R213). -/
def accessCheck (c : Config) (m : ExMem) : Except Fatal Unit :=
  if m.ctrl.memRead || m.ctrl.memWrite then dataCheck c m.aluResult else .ok ()

/-- Branch resolution of a memory slot: only a branch is validated (R338). -/
def resolveBranch (mode : PredMode) (m : ExMem) (p : PredState) : Except Fatal (PredState × Option Word) :=
  if m.ctrl.branch then validate mode p m.zero (correctNext m) m.pc4 else .ok (p, none)

/-- The word the memory stage reads, 0 where it reads none (R211). -/
def loadedData (m : ExMem) (mem : Memory) : Word :=
  if m.ctrl.memRead then wordRead mem m.aluResult else 0#32

/-- Memory after the stage's store, if any (R213). -/
def storedMem (m : ExMem) (mem : Memory) : Memory :=
  if m.ctrl.memWrite then wordWrite mem m.aluResult m.storeData else mem

/-- The data accesses a memory slot makes (R211, R213). -/
def accessCount (m : ExMem) : Nat :=
  (if m.ctrl.memRead then 1 else 0) + (if m.ctrl.memWrite then 1 else 0)

/-- Phase P5, memory: the conditional load and store, then branch and jump resolution (R279, R211, R213,
R227, R241). -/
def memoryStage (c : Config) (m : ExMem) (mem : Memory) (accesses : Nat) (pred : PredState) :
    Except Fatal MemOut :=
  if !m.valid then
    .ok { memwb := .bubble, mem := mem, memAccesses := accesses, pred := pred, redirect := none }
  else
    match accessCheck c m with
    | .error e => .error e
    | .ok _ =>
      match resolveBranch c.predMode m pred with
      | .error e => .error e
      | .ok (pred', miss) =>
        .ok { memwb := accessedSlot m (loadedData m mem)
              mem := storedMem m mem
              memAccesses := accesses + accessCount m
              pred := pred'
              redirect := if m.ctrl.jump then some (jumpDestination m) else miss }

/-- The three bins of the instruction-type histogram (R47). -/
structure Histogram where
  nR : Nat
  nI : Nat
  nJ : Nat
  deriving DecidableEq, Repr

/-- Phase P6, retirement bookkeeping (R282). -/
def retire (w : MemWb) (h : Histogram) : Histogram :=
  if !w.valid then h
  else if w.opcode = 0x00#6 then { h with nR := h.nR + 1 }
  else if w.opcode = 0x02#6 ∨ w.opcode = 0x03#6 then { h with nJ := h.nJ + 1 }
  else { h with nI := h.nI + 1 }

end Sys2Proof.Machine
end

