-- ==== Sys2Proof/Machine/Cycle.lean ====
section
/-! DEFINITION. The cycle controller (`46_pipeline.md`): one cycle step, its phases in the order of R270, and
the fetch of the word it runs on. -/

namespace Sys2Proof.Machine

/-- What phases P0 to P6 of one cycle compute, before forwarding, flush and commit. -/
structure Phases where
  stall : Bool
  regs : RegFile
  fetch : FetchOut
  decoded : IdEx
  executed : ExMem
  hilo : Option (Word × Word)
  memory : MemOut
  histogram : Histogram
  deriving DecidableEq, Repr

/-- The predictor's state as the memory stage of the cycle finds it: the queue after fetch's push (R270). -/
def predOf (s : State) (pq : List Bool) : PredState :=
  { h1 := s.h1, h2 := s.h2, pq := pq, hits := s.hits, misses := s.misses }

/-- Phases P0 to P6 in the order of R270; the first that raises ends the cycle (R284, R412). `w` is the word
that a fetch in this cycle reads. -/
def phases (s : State) (w : Word) : Except Fatal Phases := do
  let stall := stallOf s
  let regs ← prePass s.regs s.memwb.cur
  let fetch ← fetchStage s stall w
  let decoded ← decodeStage s.cfg regs s.ifid.cur s.idex.cur stall
  let (executed, hilo) ← executeStage s.cfg s.idex.cur s.hi s.lo
  let memory ← memoryStage s.cfg s.exmem.cur s.mem s.memAccesses (predOf s fetch.pq)
  .ok { stall := stall
        regs := regs
        fetch := fetch
        decoded := decoded
        executed := executed
        hilo := hilo
        memory := memory
        histogram := retire s.memwb.cur { nR := s.nR, nI := s.nI, nJ := s.nJ } }

/-- Phase P7: under FORWARD the decoded slot's operands are forwarded (R270, R312). -/
def forwarded (c : Config) (p : Phases) : IdEx :=
  if c.policy == .forward && p.decoded.valid then forwardInto p.executed p.memory.memwb p.decoded
  else p.decoded

/-- The values P9 commits: the next copies, the next pc, the queue and the pending HI/LO pair, after P7 and
P8. -/
structure Nexts where
  ifid : IfId
  idex : IdEx
  exmem : ExMem
  pc : Word
  pq : List Bool
  hilo : Option (Word × Word)
  deriving DecidableEq, Repr

/-- Phase P8: on a requested redirect the three younger slots are squashed, the pending HI/LO write is
cancelled, the queue is emptied and the pc redirected (R275, R342, R343). -/
def afterFlush (c : Config) (p : Phases) : Nexts :=
  match p.memory.redirect with
  | some target =>
    { ifid := .bubble, idex := .bubble, exmem := .bubble, pc := target, pq := [], hilo := none }
  | none =>
    { ifid := p.fetch.ifid
      idex := forwarded c p
      exmem := p.executed
      pc := p.fetch.next
      pq := p.memory.pred.pq
      hilo := p.hilo }

/-- HI after the commit (R283). -/
def hiAfter (hi : Word) : Option (Word × Word) → Word
  | some (h, _) => h
  | none => hi

/-- LO after the commit (R283). -/
def loAfter (lo : Word) : Option (Word × Word) → Word
  | some (_, l) => l
  | none => lo

/-- Phase P9, commit (R283). -/
def commit (s : State) (p : Phases) : State :=
  let n := afterFlush s.cfg p
  { s with
    regs := p.regs
    hi := hiAfter s.hi n.hilo
    lo := loAfter s.lo n.hilo
    pc := n.pc
    mem := p.memory.mem
    ifid := .both n.ifid
    idex := .both n.idex
    exmem := .both n.exmem
    memwb := .both p.memory.memwb
    h1 := p.memory.pred.h1
    h2 := p.memory.pred.h2
    pq := n.pq
    haltSeen := p.fetch.haltSeen
    cycles := s.cycles + 1
    nR := p.histogram.nR
    nI := p.histogram.nI
    nJ := p.histogram.nJ
    hits := p.memory.pred.hits
    misses := p.memory.pred.misses
    memAccesses := p.memory.memAccesses }

/-- All four current copies are bubbles (R285). -/
def State.empty (s : State) : Bool :=
  !s.ifid.cur.valid && !s.idex.cur.valid && !s.exmem.cur.valid && !s.memwb.cur.valid

/-- Phase P10: `DONE` once `halt_seen` is set and the pipeline is empty (R285). -/
def terminate (s : State) : State := if s.haltSeen && s.empty then { s with status := .done } else s

/-- One cycle of a running machine (R270); `w` is the word that a fetch in this cycle reads. A phase that
raises ends it without a commit (R284). -/
def clock (s : State) (w : Word) : State :=
  match phases s w with
  | .error f => s.fail f
  | .ok p => terminate (commit s p)

/-- The cycle as an outcome: no cycle step applies to `DONE` or `FAILED` (R45, R421). -/
def clockOutcome (s : State) (w : Word) : Host.Outcome State Fault Refusal :=
  match s.status with
  | .running => .next (clock s w)
  | .done => .fault .runDone
  | .failed f => .fault (.runFailed f)

/-- The word at the pc, `MemRead(pc, 4)` (R62, R273). -/
def fetchWord (s : State) : Word := wordRead s.mem s.pc

/-- The fetch of this cycle reads a word: it is not suppressed (R274), not stalled (R306), and passes the
checks of R66. -/
def fetchReads (s : State) : Bool :=
  !fetchSuppressed s && !stallOf s && inRange s.cfg s.pc && aligned s.pc

/-- The word by which `i` stands at the pc: the word in memory there, where that is an encoding of `i`, its
unused fields whatever they are (R94); else the encoding of `i` whose unused fields are 0. -/
def wordAtPc (i : Instr) (s : State) : Word :=
  if decode (fetchWord s) = .instr i then fetchWord s else encode i

/-- The cycle that takes instruction `i` into the pipeline: the cycle step of R270 in which the read at the
pc delivers `i`. What `i` then does, its slot does in decode, execute, memory and write-back, one per cycle
(R170, R200, R210, R228), by the bundle and the ALU code of its word. -/
def issue (i : Instr) (s : State) : Host.Outcome State Fault Refusal := clockOutcome s (wordAtPc i s)

/-- The read-only trace view `bubble_mask` of the cycle that starts in `s` (R42): bit 0 IF, 1 ID, 2 EX,
3 MEM, 4 WB. No phase reads it. A cycle that a fatal error ends has none. -/
def bubbleMask (s : State) : Option (BitVec 5) :=
  match phases s (fetchWord s) with
  | .error _ => none
  | .ok p =>
    let flush := p.memory.redirect.isSome
    some (BitVec.ofBool (!s.memwb.cur.valid) ++ BitVec.ofBool (!s.exmem.cur.valid)
      ++ BitVec.ofBool (!s.idex.cur.valid || flush)
      ++ BitVec.ofBool (!s.ifid.cur.valid || p.stall || flush)
      ++ BitVec.ofBool (p.stall || fetchSuppressed s || flush))

end Sys2Proof.Machine
end

