-- ==== Sys2Proof/Machine/Arith.lean ====
section
/-! DEFINITION. The meanings of the arithmetic, logic, compare and shift instructions (`42_arith_logic.md`).
A meaning is the cycle that takes the instruction into the pipeline; the path from there is R170. -/

namespace Sys2Proof.Machine

/-- `add rd, rs, rt` (R171). -/
def execAdd (rd rs rt : RegIdx) (s : State) : Host.Outcome State Fault Refusal := issue (.add rd rs rt) s

/-- `addu rd, rs, rt` (R172). -/
def execAddu (rd rs rt : RegIdx) (s : State) : Host.Outcome State Fault Refusal := issue (.addu rd rs rt) s

/-- `sub rd, rs, rt` (R173). -/
def execSub (rd rs rt : RegIdx) (s : State) : Host.Outcome State Fault Refusal := issue (.sub rd rs rt) s

/-- `subu rd, rs, rt` (R174). -/
def execSubu (rd rs rt : RegIdx) (s : State) : Host.Outcome State Fault Refusal := issue (.subu rd rs rt) s

/-- `and rd, rs, rt` (R175). -/
def execAnd (rd rs rt : RegIdx) (s : State) : Host.Outcome State Fault Refusal := issue (.and rd rs rt) s

/-- `or rd, rs, rt` (R176). -/
def execOr (rd rs rt : RegIdx) (s : State) : Host.Outcome State Fault Refusal := issue (.or rd rs rt) s

/-- `nor rd, rs, rt` (R177). -/
def execNor (rd rs rt : RegIdx) (s : State) : Host.Outcome State Fault Refusal := issue (.nor rd rs rt) s

/-- `slt rd, rs, rt` (R178). -/
def execSlt (rd rs rt : RegIdx) (s : State) : Host.Outcome State Fault Refusal := issue (.slt rd rs rt) s

/-- `sltu rd, rs, rt` (R179). -/
def execSltu (rd rs rt : RegIdx) (s : State) : Host.Outcome State Fault Refusal := issue (.sltu rd rs rt) s

/-- `sll rd, rt, shamt` (R180). -/
def execSll (rd rt : RegIdx) (shamt : BitVec 5) (s : State) : Host.Outcome State Fault Refusal :=
  issue (.sll rd rt shamt) s

/-- `srl rd, rt, shamt` (R181). -/
def execSrl (rd rt : RegIdx) (shamt : BitVec 5) (s : State) : Host.Outcome State Fault Refusal :=
  issue (.srl rd rt shamt) s

/-- `addi rt, rs, imm` (R182). -/
def execAddi (rt rs : RegIdx) (imm : BitVec 16) (s : State) : Host.Outcome State Fault Refusal :=
  issue (.addi rt rs imm) s

/-- `addiu rt, rs, imm` (R183). -/
def execAddiu (rt rs : RegIdx) (imm : BitVec 16) (s : State) : Host.Outcome State Fault Refusal :=
  issue (.addiu rt rs imm) s

end Sys2Proof.Machine
end

