-- ==== Sys2Proof/Machine/ControlTransfer.lean ====
section
/-! DEFINITION. The meanings of the branch and jump instructions (`45_control_transfer.md`). -/

namespace Sys2Proof.Machine

/-- `beq rs, rt, offset` (R228). -/
def execBeq (rs rt : RegIdx) (imm : BitVec 16) (s : State) : Host.Outcome State Fault Refusal :=
  issue (.beq rs rt imm) s

/-- `bne rs, rt, offset` (R229). -/
def execBne (rs rt : RegIdx) (imm : BitVec 16) (s : State) : Host.Outcome State Fault Refusal :=
  issue (.bne rs rt imm) s

/-- `j target` (R230). -/
def execJ (target : BitVec 26) (s : State) : Host.Outcome State Fault Refusal := issue (.j target) s

/-- `jal target` (R231, R232). -/
def execJal (target : BitVec 26) (s : State) : Host.Outcome State Fault Refusal := issue (.jal target) s

/-- `jr rs` (R240, R243). -/
def execJr (rs : RegIdx) (s : State) : Host.Outcome State Fault Refusal := issue (.jr rs) s

end Sys2Proof.Machine
end

