-- ==== Sys2Proof/Machine/HiLo.lean ====
section
/-! DEFINITION. The meanings of the multiply and HI/LO instructions (`43_hilo.md`). -/

namespace Sys2Proof.Machine

/-- `mult rs, rt` (R200, R201). -/
def execMult (rs rt : RegIdx) (s : State) : Host.Outcome State Fault Refusal := issue (.mult rs rt) s

/-- `mfhi rd` (R202). -/
def execMfhi (rd : RegIdx) (s : State) : Host.Outcome State Fault Refusal := issue (.mfhi rd) s

/-- `mflo rd` (R203). -/
def execMflo (rd : RegIdx) (s : State) : Host.Outcome State Fault Refusal := issue (.mflo rd) s

end Sys2Proof.Machine
end

