-- ==== Sys2Proof/Machine/LoadStore.lean ====
section
/-! DEFINITION. The meanings of the load and store instructions (`44_load_store.md`). -/

namespace Sys2Proof.Machine

/-- `lw rt, imm(rs)` (R210). -/
def execLw (rt rs : RegIdx) (imm : BitVec 16) (s : State) : Host.Outcome State Fault Refusal :=
  issue (.lw rt rs imm) s

/-- `sw rt, imm(rs)` (R212). -/
def execSw (rt rs : RegIdx) (imm : BitVec 16) (s : State) : Host.Outcome State Fault Refusal :=
  issue (.sw rt rs imm) s

end Sys2Proof.Machine
end

