-- ==== Sys2Proof/Machine/Step.lean ====
section
/-! DEFINITION. One step of the machine is one cycle (R270, R456), and the placing of a word for it. -/

namespace Sys2Proof.Machine

/-- One cycle. Where the fetch of the cycle reads an instruction, the cycle is that instruction's meaning;
where the word it reads is none of R3, the word goes the same way with no meaning of its own (R92, R93);
where it reads nothing, the cycle runs the slots in flight alone (R274, R306). -/
def step (s : State) : Host.Outcome State Fault Refusal :=
  if fetchReads s then
    match decode (fetchWord s) with
    | .instr i => exec i s
    | .unknownOpcode _ => clockOutcome s (fetchWord s)
    | .unknownFunct _ => clockOutcome s (fetchWord s)
    | .notAWord _ => clockOutcome s (fetchWord s)
  else clockOutcome s 0#32

/-- The state with the instruction of bits `w` stored at the pc, where the fetch reads it. -/
def State.withFetchWord (s : State) (nbits w : Nat) : State :=
  { s with mem := bytesWrite s.mem s.pc.toNat (tableBytes nbits w) }

end Sys2Proof.Machine
end

