-- ==== Sys2Proof/Safety.lean ====
section
/-! DEFINITION. The terms statements about the machine are made in: the states in which one instruction can
be watched alone, what it means that an instruction completes, the invariants, and the spec's tables per
instruction. -/

namespace Sys2Proof.Machine

/-- The machine runs, nothing is in flight, and the fetch of the next cycle reads a word (R66, R273). With no
branch in flight the queue is empty (R344). -/
abbrev State.Ready (s : State) : Prop :=
  s.status = .running ∧ s.empty = true ∧ s.pq = [] ∧ fetchReads s = true

/-- The machine with its fetch held off from now on, by the means the machine has for it: with `halt_seen`
set, fetch reads nothing and sends bubbles (R274). -/
def State.fetchHeld (s : State) : State := { s with haltSeen := true }

/-- `s` five cycles later, drained: the pipeline holds bubbles, and with the fetch held the run is `DONE`
(R285). Every other field is that of `s`. -/
def State.drained (s : State) : State :=
  { s with
    ifid := .both .bubble
    idex := .both .bubble
    exmem := .both .bubble
    memwb := .both .bubble
    haltSeen := true
    status := .done
    cycles := s.cycles + 5 }

/-- The state one cycle after the Ready state `s`, the word `w` taken into `IFID` and fetch gone on to `next`
with the queue `pq` (R273). -/
def State.entered (s : State) (w next : Word) (pq : List Bool) : State :=
  { s with
    ifid := .both { valid := true, instr := w, pc4 := s.pc + 4#32 }
    idex := .both .bubble
    exmem := .both .bubble
    memwb := .both .bubble
    pc := next
    pq := pq
    cycles := s.cycles + 1 }

/-- `u` is where the machine itself takes `t` in the four steps of decode, execute, memory and write-back, the
fetch being held, so that the instruction taken in is alone (R170, R200, R210, R225). -/
def State.DrainsTo (t u : State) : Prop := Host.Core.run Sys2Proof.core 4 t.fetchHeld = .next u

/-- `s` with the retirement of `i` counted (R282). -/
def State.counted (s : State) : Instr → State
  | .add _ _ _ | .addu _ _ _ | .sub _ _ _ | .subu _ _ _ | .and _ _ _ | .or _ _ _ | .nor _ _ _
  | .slt _ _ _ | .sltu _ _ _ | .sll _ _ _ | .srl _ _ _ | .mult _ _ | .mfhi _ | .mflo _ | .jr _ =>
    { s with nR := s.nR + 1 }
  | .addi _ _ _ | .addiu _ _ _ | .lw _ _ _ | .sw _ _ _ | .beq _ _ _ | .bne _ _ _ =>
    { s with nI := s.nI + 1 }
  | .j _ | .jal _ => { s with nJ := s.nJ + 1 }

/-- The meaning of `i` answers a next state from `s`, and `i` alone then takes the machine to `s` drained, with
`v` written to register `r`, the pc at the next word, one more instruction counted, and NOTHING else changed:
memory, HI, LO, every other register, the predictor and every other counter are those of `s`. -/
def WritesRegister (i : Instr) (s : State) (r : RegIdx) (v : Word) : Prop :=
  ∃ t, exec i s = .next t ∧ t = s.entered (wordAtPc i s) (s.pc + 4#32) []
    ∧ t.DrainsTo { s.drained.counted i with regs := regWrite s.regs r v, pc := s.pc + 4#32 }

/-- A branch on the condition `taken` with the offset `imm`, alone: its meaning answers a next state in which
fetch has gone where the prediction says (R337); the machine then goes to `s` drained, the pc where the
condition says (R227), the history updated (R332, R334, R336), a hit or a miss counted (R340, R341), and
nothing else changed. -/
def Branches (i : Instr) (s : State) (imm : BitVec 16) (taken : Bool) : Prop :=
  ∃ t, exec i s = .next t
    ∧ t = s.entered (wordAtPc i s)
        (if predict s.cfg.predMode s.h1 s.h2 then branchTarget (s.pc + 4#32) (sext32 imm) else s.pc + 4#32)
        [predict s.cfg.predMode s.h1 s.h2]
    ∧ t.DrainsTo { s.drained.counted i with
        pc := if taken then branchTarget (s.pc + 4#32) (sext32 imm) else s.pc + 4#32
        h1 := updateH1 s.cfg.predMode s.h1 taken
        h2 := updateH2 s.cfg.predMode s.h2 taken
        hits := s.hits + if predict s.cfg.predMode s.h1 s.h2 = taken then 1 else 0
        misses := s.misses + if predict s.cfg.predMode s.h1 s.h2 = taken then 0 else 1 }

/-- The memory stage of the instruction `i`, alone, raises `cause` at `ea`: its meaning answers a next state,
and the third step after it fails in the fourth cycle (R211, R213, R401), memory as it was (R64, R65). -/
def FailsInMemory (i : Instr) (s : State) (cause : Cause) (ea : Word) : Prop :=
  ∃ t u, exec i s = .next t ∧ t = s.entered (wordAtPc i s) (s.pc + 4#32) []
    ∧ Host.Core.run Sys2Proof.core 3 t.fetchHeld = .next u
    ∧ u.status = .failed { cause := cause, cycle := s.cycles + 4, info := ea } ∧ u.mem = s.mem

/-- The effective address of `lw` and `sw` (R214). -/
def effectiveAddress (s : State) (rs : RegIdx) (imm : BitVec 16) : Word :=
  regRead s.regs rs + sext32 imm

/-- The step of `s` answers `t` and its cycle completed: it committed (R283) and raised nothing (R284). -/
def Completed (s t : State) : Prop :=
  step s = .next t ∧ t.cycles = s.cycles + 1

/-- The redirect that the memory stage of the cycle starting in `s` requests, if any (R279, R342). -/
def redirectOf (s : State) : Option Word :=
  match phases s (fetchWord s) with
  | .ok p => p.memory.redirect
  | .error _ => none

/-- The number of valid conditional branches among `EXMEM`, `IDEX` and `IFID` (R344). -/
def branchesInFlight (s : State) : Nat :=
  (if s.exmem.cur.valid && s.exmem.cur.ctrl.branch then 1 else 0)
    + (if s.idex.cur.valid && s.idex.cur.ctrl.branch then 1 else 0)
    + (if s.ifid.cur.valid && isBranchWord s.ifid.cur.instr then 1 else 0)

/-- One outstanding prediction for each conditional branch in flight (R41, R344). -/
abbrev State.QueueMatches (s : State) : Prop := s.pq.length = branchesInFlight s

/-- The invariant of the queue (R344): it matches, and a fetch that is suppressed finds nothing in decode. The
second part is what a stall may not meet: a suppressed fetch takes precedence and sends a bubble (R274), where a
stall holds the slot. It rests on SENTINEL mod 4 ≠ 0 (R8, R243), so the configuration is one the host admits. -/
abbrev State.QueueInvariant (s : State) : Prop :=
  s.cfg.wellFormed = true ∧ s.QueueMatches ∧ (fetchSuppressed s = true → s.ifid.cur.valid = false)

/-- The memory is the canonical form of an array of MEM_SIZE bytes (R60). -/
abbrev State.MemoryCanonical (s : State) : Prop :=
  s.mem.wf = true ∧ memBelow s.cfg.memSize s.mem = true

/-- What a pipeline register holds is a valid slot or `BUBBLE`, and between cycles both copies are equal
(R35, R281, R283). -/
abbrev State.SlotsWellFormed (s : State) : Prop :=
  (s.ifid.cur.valid = true ∨ s.ifid.cur = .bubble) ∧ (s.idex.cur.valid = true ∨ s.idex.cur = .bubble)
    ∧ (s.exmem.cur.valid = true ∨ s.exmem.cur = .bubble)
    ∧ (s.memwb.cur.valid = true ∨ s.memwb.cur = .bubble)
    ∧ s.ifid.nxt = s.ifid.cur ∧ s.idex.nxt = s.idex.cur ∧ s.exmem.nxt = s.exmem.cur
    ∧ s.memwb.nxt = s.memwb.cur

/-- No slot in execute carries the `INVALID` ALU-control code (R124, R154). -/
abbrev State.ExecuteCodeValid (s : State) : Prop :=
  s.idex.cur.valid = true → s.idex.cur.aluctl ≠ .invalid

/-- The bundle of a slot is the one the decoder made for its word, copied forward (R110, R276, R277, R279). -/
abbrev State.BundlesFromDecoder (s : State) : Prop :=
  (s.idex.cur.valid = true → s.idex.cur.ctrl = controlOf s.idex.cur.opcode s.idex.cur.funct
      ∧ s.idex.cur.aluctl
        = aluControl s.idex.cur.ctrl.aluOp s.idex.cur.funct s.idex.cur.opcode)
    ∧ (s.exmem.cur.valid = true → s.exmem.cur.ctrl = controlOf s.exmem.cur.opcode s.exmem.cur.funct)
    ∧ (s.memwb.cur.valid = true → ∃ funct, s.memwb.cur.ctrl = controlOf s.memwb.cur.opcode funct)

/-- Every address a slot carries for the pc is a multiple of 4 (R226). -/
abbrev State.SlotsAligned (s : State) : Prop :=
  aligned s.ifid.cur.pc4 = true ∧ aligned s.idex.cur.pc4 = true ∧ aligned s.exmem.cur.pc4 = true
    ∧ aligned s.exmem.cur.brTarget = true ∧ aligned s.exmem.cur.jmpTarget = true

/-- The value register `r` has once the slots past decode have written back: the youngest producer's in flight,
else the register file's (R313). -/
def State.pendingRead (s : State) (r : RegIdx) : Word :=
  if exmemProduces s.exmem.cur r then exmemValue s.exmem.cur
  else if memwbProduces s.memwb.cur r then memwbValue s.memwb.cur
  else regRead s.regs r

/-- The decode stage of the cycle that starts in `s` decodes a word: valid and not stalled (R276). -/
def decodes (s : State) : Bool := s.ifid.cur.valid && !stallOf s

/-- The memory stage of the cycle that starts in `s` accesses data memory (R211, R213). -/
def accesses (s : State) : Bool :=
  s.exmem.cur.valid && (s.exmem.cur.ctrl.memRead || s.exmem.cur.ctrl.memWrite)

/-- The memory stage of the cycle that starts in `s` resolves a branch (R227). -/
def resolves (s : State) : Bool := s.exmem.cur.valid && s.exmem.cur.ctrl.branch

/-- The fetch of the cycle that starts in `s` checks its address (R66, R274, R306). -/
def fetches (s : State) : Bool := !fetchSuppressed s && !stallOf s

/-- The fatal error that the cycle starting in `s` reports, if any: the first in the order of R412, under the
conditions of the table of R400. The two unreachable causes do not occur in it. -/
def firstFault (s : State) : Option Fatal :=
  if fetches s && !inRange s.cfg s.pc then some ⟨.fetchOutOfRange, s.pc⟩
  else if fetches s && !aligned s.pc then some ⟨.fetchMisaligned, s.pc⟩
  else if decodes s && (decode s.ifid.cur.instr == .unknownFunct (functOf s.ifid.cur.instr)) then
    some ⟨.invalidAluControl, s.ifid.cur.instr⟩
  else if decodes s && s.cfg.loadUseMode == .fault && loadUse s.idex.cur s.ifid.cur then
    some ⟨.loadUseHazard, s.ifid.cur.instr⟩
  else if accesses s && !inRange s.cfg s.exmem.cur.aluResult then
    some ⟨.memOutOfRange, s.exmem.cur.aluResult⟩
  else if accesses s && !aligned s.exmem.cur.aluResult then
    some ⟨.misalignedData, s.exmem.cur.aluResult⟩
  else none

/-- The predictions the fetch of the cycle that starts in `s` pushes (R337). -/
def pushed (s : State) : List Bool :=
  if fetchReads s && isBranchWord (fetchWord s) then [predict s.cfg.predMode s.h1 s.h2] else []

end Sys2Proof.Machine

namespace Sys2Proof

open Machine

/-- The row of the bundle table for an instruction (R113). -/
def Instr.bundleRow : Instr → Ctrl
  | .add _ _ _ | .addu _ _ _ | .sub _ _ _ | .subu _ _ _ | .and _ _ _ | .or _ _ _ | .nor _ _ _
  | .slt _ _ _ | .sltu _ _ _ | .sll _ _ _ | .srl _ _ _ | .mfhi _ | .mflo _ =>
    ⟨.rd, .reg, .alu, true, false, false, false, false, 0b10#2⟩
  | .mult _ _ => ⟨.rd, .reg, .alu, false, false, false, false, false, 0b10#2⟩
  | .jr _ => ⟨.rd, .reg, .alu, false, false, false, false, true, 0b10#2⟩
  | .addi _ _ _ | .addiu _ _ _ => ⟨.rt, .imm, .alu, true, false, false, false, false, 0b00#2⟩
  | .lw _ _ _ => ⟨.rt, .imm, .mem, true, true, false, false, false, 0b00#2⟩
  | .sw _ _ _ => ⟨.rt, .imm, .alu, false, false, true, false, false, 0b00#2⟩
  | .beq _ _ _ | .bne _ _ _ => ⟨.rt, .reg, .alu, false, false, false, true, false, 0b01#2⟩
  | .j _ => ⟨.rt, .reg, .alu, false, false, false, false, true, 0b00#2⟩
  | .jal _ => ⟨.ra, .reg, .link, true, false, false, false, true, 0b00#2⟩

/-- The ALU-control code of an instruction (R122). -/
def Instr.aluRow : Instr → AluCtl
  | .add _ _ _ | .addu _ _ _ => .add
  | .sub _ _ _ | .subu _ _ _ => .sub
  | .and _ _ _ => .and
  | .or _ _ _ => .or
  | .nor _ _ _ => .nor
  | .slt _ _ _ => .slt
  | .sltu _ _ _ => .sltu
  | .sll _ _ _ => .sll
  | .srl _ _ _ => .srl
  | .mult _ _ => .mult
  | .mfhi _ => .mfhi
  | .mflo _ => .mflo
  | .jr _ => .passA
  | .addi _ _ _ | .addiu _ _ _ | .lw _ _ _ | .sw _ _ _ | .j _ | .jal _ => .add
  | .beq _ _ _ => .brEq
  | .bne _ _ _ => .brNe

/-- The read set of an instruction before index 0 is removed (R120). -/
def Instr.readsRow : Instr → List RegIdx
  | .add _ rs rt | .addu _ rs rt | .sub _ rs rt | .subu _ rs rt | .and _ rs rt | .or _ rs rt
  | .nor _ rs rt | .slt _ rs rt | .sltu _ rs rt | .mult rs rt => [rs, rt]
  | .sll _ rt _ | .srl _ rt _ => [rt]
  | .mfhi _ | .mflo _ => []
  | .jr rs => [rs]
  | .addi _ rs _ | .addiu _ rs _ | .lw _ rs _ => [rs]
  | .sw rt rs _ | .beq rs rt _ | .bne rs rt _ => [rs, rt]
  | .j _ | .jal _ => []

end Sys2Proof
end

