-- ==== Sys2Proof/Certificates/Slice0/Obligations.lean ====
section
/-! DEFINITION. The statements for the provers. A statement's rules are named in its docstring; OBLIGATIONS.json
holds the rest. -/

open Sys2Proof Sys2Proof.Machine

/-! ### Encoding and decoding -/

/-- Decode and encode agree on every instruction, with every operand at every value (R81 to R84, R89, R90). -/
def Obligations.DecodeEncode : Prop := ∀ i : Instr, decode (encode i) = .instr i

/-- Words written out from the formats and maps decode to the instructions they stand for (R171, R182, R200,
R212, R228, R231, R240). -/
def Obligations.WrittenWordsDecode : Prop :=
  decode 0b00000000001000100001100000100000#32 = .instr (.add 3#5 1#5 2#5)
    ∧ decode 0b00000001000010010000000000011000#32 = .instr (.mult 8#5 9#5)
    ∧ decode 0b00100000000000010000000000000101#32 = .instr (.addi 1#5 0#5 5#16)
    ∧ decode 0b10101111101010100000000000000100#32 = .instr (.sw 10#5 29#5 4#16)
    ∧ decode 0b00010000001000100000000000000010#32 = .instr (.beq 1#5 2#5 2#16)
    ∧ decode 0b00001100000000000000000000000110#32 = .instr (.jal 6#26)
    ∧ decode 0b00000011111000000000000000001000#32 = .instr (.jr 31#5)

/-- A field an instruction does not use is ignored (R94). -/
def Obligations.UnusedFieldsIgnored : Prop :=
  ∀ (rs rt rd rs' rt' rd' : RegIdx) (sh sh' : BitVec 5),
    (∀ f ∈ [0x20#6, 0x21#6, 0x22#6, 0x23#6, 0x24#6, 0x25#6, 0x27#6, 0x2A#6, 0x2B#6],
        decode (rWord f rs rt rd sh) = decode (rWord f rs rt rd sh'))
      ∧ (∀ f ∈ [0x00#6, 0x02#6], decode (rWord f rs rt rd sh) = decode (rWord f rs' rt rd sh))
      ∧ decode (rWord 0x18#6 rs rt rd sh) = decode (rWord 0x18#6 rs rt rd' sh')
      ∧ (∀ f ∈ [0x10#6, 0x12#6], decode (rWord f rs rt rd sh) = decode (rWord f rs' rt' rd sh'))
      ∧ decode (rWord 0x08#6 rs rt rd sh) = decode (rWord 0x08#6 rs rt' rd' sh')

/-- A word is one of the 23 instructions unless its opcode is outside R89, or its opcode is 0 and its function
code outside R90 (R3, R89, R90). -/
def Obligations.DecodeIsTotal : Prop :=
  ∀ w : Word,
    (decode w = .unknownOpcode (opcodeOf w) ↔
        opcodeOf w ∉ [0x00#6, 0x02#6, 0x03#6, 0x04#6, 0x05#6, 0x08#6, 0x09#6, 0x23#6, 0x2B#6])
      ∧ (decode w = .unknownFunct (functOf w) ↔
        opcodeOf w = 0x00#6 ∧ functOf w ∉ [0x00#6, 0x02#6, 0x08#6, 0x10#6, 0x12#6, 0x18#6, 0x20#6, 0x21#6,
          0x22#6, 0x23#6, 0x24#6, 0x25#6, 0x27#6, 0x2A#6, 0x2B#6])
      ∧ ((∃ i, decode w = .instr i)
        ∨ decode w = .unknownOpcode (opcodeOf w) ∨ decode w = .unknownFunct (functOf w))

/-- The bundle of every word: the table's row for an instruction, the R-type bundle for an unlisted function
code, `CTRL_OFF` for an unlisted opcode (R110 to R113). -/
def Obligations.BundleTable : Prop :=
  ∀ w : Word,
    (∀ i, decode w = .instr i → (decoder w).1 = i.bundleRow)
      ∧ (decode w = .unknownFunct (functOf w) →
        (decoder w).1 = ⟨.rd, .reg, .alu, true, false, false, false, false, 0b10#2⟩)
      ∧ (decode w = .unknownOpcode (opcodeOf w) →
        (decoder w).1 = ⟨.rt, .reg, .alu, false, false, false, false, false, 0b00#2⟩)

/-- The ALU-control code of every word: an instruction's row of the table; `INVALID` for an unlisted function
code and for no other word (R122, R124). -/
def Obligations.AluCodeTable : Prop :=
  ∀ w : Word,
    (∀ i, decode w = .instr i → aluControl (decoder w).1.aluOp (functOf w) (opcodeOf w) = i.aluRow)
      ∧ (aluControl (decoder w).1.aluOp (functOf w) (opcodeOf w) = .invalid ↔
        decode w = .unknownFunct (functOf w))

/-- The read set of every word, index 0 removed (R120). -/
def Obligations.ReadSetTable : Prop :=
  ∀ (w : Word) (r : RegIdx),
    (∀ i, decode w = .instr i → (r ∈ readsOf w ↔ r ∈ i.readsRow ∧ r ≠ 0#5))
      ∧ (decode w = .unknownFunct (functOf w) → (r ∈ readsOf w ↔ (r = rsOf w ∨ r = rtOf w) ∧ r ≠ 0#5))
      ∧ (decode w = .unknownOpcode (opcodeOf w) → readsOf w = [])

/-! ### Registers, memory, the ALU -/

/-- Register 0 reads 0 whatever is written, and any other register reads the last value written to it (R21). -/
def Obligations.RegisterZeroReadsZero : Prop :=
  ∀ (f : RegFile) (i j : RegIdx) (v : Word),
    regRead f 0#5 = 0#32 ∧ regWrite f 0#5 v = f
      ∧ (i ≠ 0#5 → regRead (regWrite f i v) i = v)
      ∧ (j ≠ i → regRead (regWrite f i v) j = regRead f j)

/-- A word reads as its four bytes, the lowest address in the top bits; a stored word is four big-endian bytes,
reads back as the word, and changes no other byte (R62, R63). -/
def Obligations.WordMemory : Prop :=
  ∀ (m : Memory) (a v : Word), m.wf = true →
    (wordRead m a).toNat = (byteRead m a.toNat).toNat * 2 ^ 24
        + (byteRead m (a.toNat + 1)).toNat * 2 ^ 16 + (byteRead m (a.toNat + 2)).toNat * 2 ^ 8
        + (byteRead m (a.toNat + 3)).toNat
      ∧ byteRead (wordWrite m a v) a.toNat = v.extractLsb' 24 8
      ∧ byteRead (wordWrite m a v) (a.toNat + 1) = v.extractLsb' 16 8
      ∧ byteRead (wordWrite m a v) (a.toNat + 2) = v.extractLsb' 8 8
      ∧ byteRead (wordWrite m a v) (a.toNat + 3) = v.extractLsb' 0 8
      ∧ wordRead (wordWrite m a v) a = v
      ∧ (∀ x, x < a.toNat ∨ a.toNat + 4 ≤ x → byteRead (wordWrite m a v) x = byteRead m x)
      ∧ Memory.wf (wordWrite m a v) = true

/-- The sum, the difference and the shifts as numbers modulo 2^32, the logical operations bit by bit, and the
values passed through; the flag says whether the result is 0 (R142, R143, R144, R146, R147, R148, R149). -/
def Obligations.AluResults : Prop :=
  ∀ (m : SltMode) (a b hi lo : Word) (sh : BitVec 5),
    (∃ o, alu m .add a b sh hi lo = some o ∧ o.result.toNat = (a.toNat + b.toNat) % 2 ^ 32
        ∧ (o.zero = true ↔ o.result = 0#32) ∧ o.hilo = none)
      ∧ (∃ o, alu m .sub a b sh hi lo = some o
        ∧ (o.result.toNat : Int) = ((a.toNat : Int) - b.toNat) % 2 ^ 32
        ∧ (o.zero = true ↔ o.result = 0#32) ∧ o.hilo = none)
      ∧ (∃ o, alu m .sll a b sh hi lo = some o
        ∧ o.result.toNat = (b.toNat * 2 ^ sh.toNat) % 2 ^ 32
        ∧ (o.zero = true ↔ o.result = 0#32) ∧ o.hilo = none)
      ∧ (∃ o, alu m .srl a b sh hi lo = some o ∧ o.result.toNat = b.toNat / 2 ^ sh.toNat
        ∧ (o.zero = true ↔ o.result = 0#32) ∧ o.hilo = none)
      ∧ (∃ o, alu m .and a b sh hi lo = some o
        ∧ (∀ k, k < 32 → o.result.getLsbD k = (a.getLsbD k && b.getLsbD k))
        ∧ (o.zero = true ↔ o.result = 0#32) ∧ o.hilo = none)
      ∧ (∃ o, alu m .or a b sh hi lo = some o
        ∧ (∀ k, k < 32 → o.result.getLsbD k = (a.getLsbD k || b.getLsbD k))
        ∧ (o.zero = true ↔ o.result = 0#32) ∧ o.hilo = none)
      ∧ (∃ o, alu m .nor a b sh hi lo = some o
        ∧ (∀ k, k < 32 → o.result.getLsbD k = !(a.getLsbD k || b.getLsbD k))
        ∧ (o.zero = true ↔ o.result = 0#32) ∧ o.hilo = none)
      ∧ (∃ o, alu m .sltu a b sh hi lo = some o
        ∧ o.result.toNat = (if a.toNat < b.toNat then 1 else 0)
        ∧ (o.zero = true ↔ o.result = 0#32) ∧ o.hilo = none)
      ∧ (∃ o, alu m .passA a b sh hi lo = some o ∧ o.result = a
        ∧ (o.zero = true ↔ o.result = 0#32) ∧ o.hilo = none)
      ∧ (∃ o, alu m .mfhi a b sh hi lo = some o ∧ o.result = hi
        ∧ (o.zero = true ↔ o.result = 0#32) ∧ o.hilo = none)
      ∧ (∃ o, alu m .mflo a b sh hi lo = some o ∧ o.result = lo
        ∧ (o.zero = true ↔ o.result = 0#32) ∧ o.hilo = none)

/-- `SLT` answers 1 or 0: the true signed comparison under `TRUE_COMPARE`, the sign of the wrapped difference
under `SIGN_OF_DIFF`; the two agree where the difference does not overflow (R145). -/
def Obligations.SltModes : Prop :=
  ∀ a b : Word,
    (sltResult .trueCompare a b = 1#32 ↔ a.toInt < b.toInt)
      ∧ (sltResult .signOfDiff a b = 1#32 ↔ (a - b).getLsbD 31 = true)
      ∧ (∀ m, sltResult m a b = 0#32 ∨ sltResult m a b = 1#32)
      ∧ (-2 ^ 31 ≤ a.toInt - b.toInt ∧ a.toInt - b.toInt ≤ 2 ^ 31 - 1 →
        sltResult .trueCompare a b = sltResult .signOfDiff a b)

/-- `MULT` returns the exact signed product in two halves, with result 0 and the flag set (R151). -/
def Obligations.MultIsExact : Prop :=
  ∀ (m : SltMode) (a b hi lo : Word) (sh : BitVec 5),
    ∃ h l, alu m .mult a b sh hi lo = some ⟨0#32, true, some (h, l)⟩
      ∧ h.toInt * 2 ^ 32 + l.toNat = a.toInt * b.toInt

/-- The branch forms: the wrapped difference, the flag the branch condition, no HI/LO pair (R152). -/
def Obligations.BranchFlags : Prop :=
  ∀ (m : SltMode) (a b hi lo : Word) (sh : BitVec 5),
    (∃ o, alu m .brEq a b sh hi lo = some o ∧ o.result = a - b ∧ (o.zero = true ↔ a = b) ∧ o.hilo = none)
      ∧ (∃ o, alu m .brNe a b sh hi lo = some o ∧ o.result = a - b ∧ (o.zero = true ↔ a ≠ b)
        ∧ o.hilo = none)

/-- The branch and jump targets as numbers (R86, R87). -/
def Obligations.TargetNumbers : Prop :=
  ∀ (pc4 : Word) (imm : BitVec 16) (target : BitVec 26),
    ((branchTarget pc4 (sext32 imm)).toNat : Int) = (pc4.toNat + 4 * imm.toInt) % 2 ^ 32
      ∧ (jumpTarget pc4 target).toNat = pc4.toNat / 2 ^ 28 * 2 ^ 28 + target.toNat * 4

/-! ### Instructions, each alone from a machine with an empty pipeline

An instruction takes five cycles. Each statement says that its meaning answers a next state, and where the machine
then takes it in the four cycles after, the fetch held so that it stays alone (R274). That one step is one cycle,
and this way of watching one instruction, are the model's choices: log entries 1 and 2. -/

/-- A step whose fetch reads an instruction is that instruction's meaning (R270, R273). -/
def Obligations.StepRunsDecoded : Prop :=
  ∀ (s : State) (i : Instr), fetchReads s = true → decode (fetchWord s) = .instr i →
    i.wellFormed = true ∧ step s = exec i s

/-- `add`, `addu`, `sub`, `subu`, `and`, `or`, `nor` complete (R171 to R177). -/
def Obligations.RegisterAluComplete : Prop :=
  ∀ (s : State) (rd rs rt : RegIdx), s.Ready →
    WritesRegister (.add rd rs rt) s rd (regRead s.regs rs + regRead s.regs rt)
      ∧ WritesRegister (.addu rd rs rt) s rd (regRead s.regs rs + regRead s.regs rt)
      ∧ WritesRegister (.sub rd rs rt) s rd (regRead s.regs rs - regRead s.regs rt)
      ∧ WritesRegister (.subu rd rs rt) s rd (regRead s.regs rs - regRead s.regs rt)
      ∧ WritesRegister (.and rd rs rt) s rd (regRead s.regs rs &&& regRead s.regs rt)
      ∧ WritesRegister (.or rd rs rt) s rd (regRead s.regs rs ||| regRead s.regs rt)
      ∧ WritesRegister (.nor rd rs rt) s rd (~~~(regRead s.regs rs ||| regRead s.regs rt))

/-- `slt` and `sltu` complete (R178, R179, R145). -/
def Obligations.CompareComplete : Prop :=
  ∀ (s : State) (rd rs rt : RegIdx), s.Ready →
    WritesRegister (.slt rd rs rt) s rd
        (match s.cfg.sltMode with
          | .trueCompare => if (regRead s.regs rs).toInt < (regRead s.regs rt).toInt then 1#32 else 0#32
          | .signOfDiff => if (regRead s.regs rs - regRead s.regs rt).msb then 1#32 else 0#32)
      ∧ WritesRegister (.sltu rd rs rt) s rd
        (if (regRead s.regs rs).toNat < (regRead s.regs rt).toNat then 1#32 else 0#32)

/-- `sll` and `srl` complete (R180, R181). -/
def Obligations.ShiftComplete : Prop :=
  ∀ (s : State) (rd rt : RegIdx) (shamt : BitVec 5), s.Ready →
    WritesRegister (.sll rd rt shamt) s rd (regRead s.regs rt <<< shamt.toNat)
      ∧ WritesRegister (.srl rd rt shamt) s rd (regRead s.regs rt >>> shamt.toNat)

/-- `addi` and `addiu` complete (R182, R183). -/
def Obligations.ImmediateComplete : Prop :=
  ∀ (s : State) (rt rs : RegIdx) (imm : BitVec 16), s.Ready →
    WritesRegister (.addi rt rs imm) s rt (regRead s.regs rs + imm.signExtend 32)
      ∧ WritesRegister (.addiu rt rs imm) s rt (regRead s.regs rs + imm.signExtend 32)

/-- `mult` completes: HI and LO hold the product's halves, no general register is written (R200). -/
def Obligations.MultCompletes : Prop :=
  ∀ (s : State) (rs rt : RegIdx), s.Ready →
    ∃ t, exec (.mult rs rt) s = .next t ∧ t = s.entered (wordAtPc (.mult rs rt) s) (s.pc + 4#32) []
      ∧ t.DrainsTo { s.drained.counted (.mult rs rt) with
          hi := (BitVec.ofInt 64 ((regRead s.regs rs).toInt * (regRead s.regs rt).toInt)).extractLsb' 32 32
          lo := (BitVec.ofInt 64 ((regRead s.regs rs).toInt * (regRead s.regs rt).toInt)).extractLsb' 0 32
          pc := s.pc + 4#32 }

/-- `mfhi` and `mflo` complete (R202, R203). -/
def Obligations.MoveFromComplete : Prop :=
  ∀ (s : State) (rd : RegIdx), s.Ready →
    WritesRegister (.mfhi rd) s rd s.hi ∧ WritesRegister (.mflo rd) s rd s.lo

/-- `lw` completes on an aligned address in range; with `rt = 0` the access still counts (R210, R211, R214). -/
def Obligations.LoadCompletes : Prop :=
  ∀ (s : State) (rt rs : RegIdx) (imm : BitVec 16), s.Ready →
    inRange s.cfg (effectiveAddress s rs imm) = true → aligned (effectiveAddress s rs imm) = true →
    ∃ t, exec (.lw rt rs imm) s = .next t ∧ t = s.entered (wordAtPc (.lw rt rs imm) s) (s.pc + 4#32) []
      ∧ t.DrainsTo { s.drained.counted (.lw rt rs imm) with
          regs := regWrite s.regs rt (wordRead s.mem (effectiveAddress s rs imm))
          memAccesses := s.memAccesses + 1
          pc := s.pc + 4#32 }

/-- `sw` completes on an aligned address in range: in a canonical memory the word at the effective address is
the register's, and in any memory every byte outside its four reads as before (R212, R213, R214). -/
def Obligations.StoreCompletes : Prop :=
  ∀ (s : State) (rt rs : RegIdx) (imm : BitVec 16), s.Ready →
    inRange s.cfg (effectiveAddress s rs imm) = true → aligned (effectiveAddress s rs imm) = true →
    ∃ t m, exec (.sw rt rs imm) s = .next t ∧ t = s.entered (wordAtPc (.sw rt rs imm) s) (s.pc + 4#32) []
      ∧ t.DrainsTo { s.drained.counted (.sw rt rs imm) with
          mem := m
          memAccesses := s.memAccesses + 1
          pc := s.pc + 4#32 }
      ∧ (s.mem.wf = true → wordRead m (effectiveAddress s rs imm) = regRead s.regs rt ∧ m.wf = true)
      ∧ ∀ a, a < (effectiveAddress s rs imm).toNat ∨ (effectiveAddress s rs imm).toNat + 4 ≤ a →
        byteRead m a = byteRead s.mem a

/-- `lw` and `sw` fail on an address out of range, and on one in range that is no multiple of 4; memory is not
changed (R64, R65, R403, R405). -/
def Obligations.DataAddressFaults : Prop :=
  ∀ (s : State) (rt rs : RegIdx) (imm : BitVec 16), s.Ready →
    ∀ i ∈ [Instr.lw rt rs imm, Instr.sw rt rs imm],
      (inRange s.cfg (effectiveAddress s rs imm) = false →
          FailsInMemory i s .memOutOfRange (effectiveAddress s rs imm))
        ∧ (inRange s.cfg (effectiveAddress s rs imm) = true →
          aligned (effectiveAddress s rs imm) = false →
          FailsInMemory i s .misalignedData (effectiveAddress s rs imm))

/-- `beq` and `bne` complete, under every prediction (R228, R229, R227). -/
def Obligations.BranchesComplete : Prop :=
  ∀ (s : State) (rs rt : RegIdx) (imm : BitVec 16), s.Ready →
    Branches (.beq rs rt imm) s imm (decide (regRead s.regs rs = regRead s.regs rt))
      ∧ Branches (.bne rs rt imm) s imm (decide (regRead s.regs rs ≠ regRead s.regs rt))

/-- `j` and `jal` complete: nothing changes but the pc, the counts and, for `jal`, `$31`, which holds the pc of
the `jal` plus JAL_LINK_OFFSET (R230, R231, R232). -/
def Obligations.JumpsComplete : Prop :=
  ∀ (s : State) (target : BitVec 26), s.Ready →
    (∃ t, exec (.j target) s = .next t ∧ t = s.entered (wordAtPc (.j target) s) (s.pc + 4#32) []
        ∧ t.DrainsTo { s.drained.counted (.j target) with
            pc := (s.pc + 4#32).extractLsb' 28 4 ++ target ++ 0b00#2 })
      ∧ ∃ t, exec (.jal target) s = .next t ∧ t = s.entered (wordAtPc (.jal target) s) (s.pc + 4#32) []
        ∧ t.DrainsTo { s.drained.counted (.jal target) with
            regs := regWrite s.regs 31#5 (s.pc + s.cfg.linkOffset.toWord)
            pc := (s.pc + 4#32).extractLsb' 28 4 ++ target ++ 0b00#2 }

/-- `jr` completes: the pc is the register's value (R240). -/
def Obligations.JumpRegisterCompletes : Prop :=
  ∀ (s : State) (rs : RegIdx), s.Ready →
    ∃ t, exec (.jr rs) s = .next t ∧ t = s.entered (wordAtPc (.jr rs) s) (s.pc + 4#32) []
      ∧ t.DrainsTo { s.drained.counted (.jr rs) with pc := regRead s.regs rs }

/-- A word with an opcode outside the map acts as a no-op that retires in `n_I` (R92, R112). -/
def Obligations.UnknownOpcodeIsNoOp : Prop :=
  ∀ s : State, s.Ready → decode (fetchWord s) = .unknownOpcode (opcodeOf (fetchWord s)) →
    ∃ t, step s = .next t ∧ t = s.entered (fetchWord s) (s.pc + 4#32) []
      ∧ t.DrainsTo { s.drained with pc := s.pc + 4#32, nI := s.nI + 1 }

/-! ### One cycle of any state -/

/-- The pre-pass makes the cycle's one register-file write: the write-back mux's value, into the slot's
destination, where the slot writes (R272, R22). -/
def Obligations.WriteBackWritesRegister : Prop :=
  ∀ s t : State, Completed s t →
    t.regs =
      if s.memwb.cur.valid = true ∧ s.memwb.cur.ctrl.regWrite = true then
        regWrite s.regs s.memwb.cur.writeReg
          (match s.memwb.cur.ctrl.memtoReg with
            | .alu => s.memwb.cur.aluResult
            | .mem => s.memwb.cur.memData
            | .link => s.memwb.cur.link)
      else s.regs

/-- A valid slot in write-back retires into one bin of the histogram; a bubble into none (R282, R281). -/
def Obligations.RetirementCounts : Prop :=
  ∀ s t : State, Completed s t →
    t.nR = s.nR + (if s.memwb.cur.valid = true ∧ s.memwb.cur.opcode = 0x00#6 then 1 else 0)
      ∧ t.nJ = s.nJ + (if s.memwb.cur.valid = true
          ∧ (s.memwb.cur.opcode = 0x02#6 ∨ s.memwb.cur.opcode = 0x03#6) then 1 else 0)
      ∧ t.nI = s.nI + (if s.memwb.cur.valid = true
          ∧ s.memwb.cur.opcode ∉ [0x00#6, 0x02#6, 0x03#6] then 1 else 0)

/-- The memory stage: the load, the store, the access count, and the slot it hands on (R279, R211, R213). -/
def Obligations.MemoryStage : Prop :=
  ∀ s t : State, Completed s t →
    (s.exmem.cur.valid = false → t.memwb = .both .bubble ∧ t.mem = s.mem ∧ t.memAccesses = s.memAccesses)
      ∧ (s.exmem.cur.valid = true →
        t.memwb = .both
            { valid := true
              ctrl := s.exmem.cur.ctrl
              opcode := s.exmem.cur.opcode
              aluResult := s.exmem.cur.aluResult
              memData := if s.exmem.cur.ctrl.memRead then wordRead s.mem s.exmem.cur.aluResult else 0#32
              link := s.exmem.cur.link
              writeReg := s.exmem.cur.writeReg }
          ∧ t.mem = (if s.exmem.cur.ctrl.memWrite then
              wordWrite s.mem s.exmem.cur.aluResult s.exmem.cur.storeData else s.mem)
          ∧ t.memAccesses = s.memAccesses + (if s.exmem.cur.ctrl.memRead then 1 else 0)
            + (if s.exmem.cur.ctrl.memWrite then 1 else 0))

/-- Only a valid storing slot in the memory stage changes memory, and only the four bytes of an aligned word in
range (R213, R280). -/
def Obligations.MemoryChangesOnlyByStore : Prop :=
  ∀ (s t : State) (a : Nat), step s = .next t → byteRead t.mem a ≠ byteRead s.mem a →
    s.exmem.cur.valid = true ∧ s.exmem.cur.ctrl.memWrite = true
      ∧ s.exmem.cur.aluResult.toNat ≤ a ∧ a < s.exmem.cur.aluResult.toNat + 4
      ∧ s.exmem.cur.aluResult.toNat + 4 ≤ s.cfg.memSize ∧ s.exmem.cur.aluResult.toNat % 4 = 0

/-- The execute stage of a cycle that does not redirect: the ALU's result and flag, the targets, the link value
and the destination (R277, R278, R141, R114). -/
def Obligations.ExecuteStage : Prop :=
  ∀ s t : State, Completed s t → redirectOf s = none →
    (s.idex.cur.valid = false → t.exmem = .both .bubble)
      ∧ (s.idex.cur.valid = true →
        ∃ out, alu s.cfg.sltMode s.idex.cur.aluctl s.idex.cur.rsVal
            (if s.idex.cur.ctrl.aluSrc = .imm then s.idex.cur.imm else s.idex.cur.rtVal)
            s.idex.cur.shamt s.hi s.lo = some out
          ∧ t.exmem = .both
            { valid := true
              ctrl := s.idex.cur.ctrl
              opcode := s.idex.cur.opcode
              funct := s.idex.cur.funct
              aluResult := out.result
              zero := out.zero
              brTarget := s.idex.cur.pc4 + (s.idex.cur.imm <<< 2)
              jmpTarget := s.idex.cur.pc4.extractLsb' 28 4 ++ s.idex.cur.target ++ 0b00#2
              storeData := s.idex.cur.rtVal
              writeReg := match s.idex.cur.ctrl.regDst with
                | .rt => s.idex.cur.rt
                | .rd => s.idex.cur.rd
                | .ra => 31#5
              pc4 := s.idex.cur.pc4
              link := s.idex.cur.pc4 + s.cfg.linkOffset.toWord - 4#32 })

/-- HI and LO change only by a `mult` in execute that the cycle's flush does not squash, at the end of the
cycle, to the product's halves (R201, R25). -/
def Obligations.HiLoWrittenByMult : Prop :=
  ∀ s t : State, Completed s t →
    (t.hi, t.lo) =
      if s.idex.cur.valid = true ∧ s.idex.cur.aluctl = .mult ∧ redirectOf s = none then
        ((BitVec.ofInt 64 (s.idex.cur.rsVal.toInt * (if s.idex.cur.ctrl.aluSrc = .imm then s.idex.cur.imm
            else s.idex.cur.rtVal).toInt)).extractLsb' 32 32,
          (BitVec.ofInt 64 (s.idex.cur.rsVal.toInt * (if s.idex.cur.ctrl.aluSrc = .imm then s.idex.cur.imm
            else s.idex.cur.rtVal).toInt)).extractLsb' 0 32)
      else (s.hi, s.lo)

/-- The decode stage of a cycle that does not redirect: a bubble on a stall or a bubble, else the word's
bundle, code and fields; under `STALL` the operands are the register file's after the pre-pass (R276, R123). -/
def Obligations.DecodeStage : Prop :=
  ∀ s t : State, Completed s t → redirectOf s = none →
    (decodes s = false → t.idex = .both .bubble)
      ∧ (decodes s = true → ∃ rsVal rtVal,
        t.idex = .both
            { valid := true
              ctrl := (decoder s.ifid.cur.instr).1
              aluctl := aluControl (decoder s.ifid.cur.instr).1.aluOp (functOf s.ifid.cur.instr)
                (opcodeOf s.ifid.cur.instr)
              opcode := s.ifid.cur.instr.extractLsb' 26 6
              funct := s.ifid.cur.instr.extractLsb' 0 6
              rs := s.ifid.cur.instr.extractLsb' 21 5
              rt := s.ifid.cur.instr.extractLsb' 16 5
              rd := s.ifid.cur.instr.extractLsb' 11 5
              shamt := s.ifid.cur.instr.extractLsb' 6 5
              imm := (s.ifid.cur.instr.extractLsb' 0 16).signExtend 32
              target := s.ifid.cur.instr.extractLsb' 0 26
              rsVal := rsVal
              rtVal := rtVal
              pc4 := s.ifid.cur.pc4 }
          ∧ (s.cfg.policy = .stall → rsVal = regRead t.regs (rsOf s.ifid.cur.instr)
            ∧ rtVal = regRead t.regs (rtOf s.ifid.cur.instr)))

/-- Under `FORWARD` an operand the decoded word reads is the execute-stage producer's value, else the
memory-stage producer's, else the register file's; a load in execute forwards nothing, and an operand it does not
read is the register file's (R311, R312). That reading is asked of the field, not of the index, is the model's
choice: log entry 12. -/
def Obligations.ForwardMux : Prop :=
  ∀ s t : State, Completed s t → s.cfg.policy = .forward → t.idex.cur.valid = true →
    t.idex.cur.rsVal =
        (if usesRs t.idex.cur.opcode t.idex.cur.funct = true then
          if exmemProduces t.exmem.cur t.idex.cur.rs = true ∧ t.exmem.cur.ctrl.memtoReg ≠ .mem then
            (if t.exmem.cur.ctrl.memtoReg = .alu then t.exmem.cur.aluResult else t.exmem.cur.link)
          else if memwbProduces t.memwb.cur t.idex.cur.rs = true then memwbValue t.memwb.cur
          else regRead t.regs t.idex.cur.rs
        else regRead t.regs t.idex.cur.rs)
      ∧ t.idex.cur.rtVal =
        (if usesRt t.idex.cur.opcode t.idex.cur.funct = true then
          if exmemProduces t.exmem.cur t.idex.cur.rt = true ∧ t.exmem.cur.ctrl.memtoReg ≠ .mem then
            (if t.exmem.cur.ctrl.memtoReg = .alu then t.exmem.cur.aluResult else t.exmem.cur.link)
          else if memwbProduces t.memwb.cur t.idex.cur.rt = true then memwbValue t.memwb.cur
          else regRead t.regs t.idex.cur.rt
        else regRead t.regs t.idex.cur.rt)

/-- Under either policy an operand that a word reads is the value its register has once the older slots have
written back, except in the load-use case (R313, R305, R461). -/
def Obligations.OperandsAreCurrent : Prop :=
  ∀ s t : State, Completed s t → s.BundlesFromDecoder → t.idex.cur.valid = true →
    loadUse s.idex.cur s.ifid.cur = false →
    (usesRs t.idex.cur.opcode t.idex.cur.funct = true → t.idex.cur.rsVal = t.pendingRead t.idex.cur.rs)
      ∧ (usesRt t.idex.cur.opcode t.idex.cur.funct = true →
        t.idex.cur.rtVal = t.pendingRead t.idex.cur.rt)

/-- The load-use case under `STALE` is not delayed, and the operand is not the loaded value: it is the memory
stage's value under `FORWARD` where that produces the register, else the register file's (R307). -/
def Obligations.LoadUseReadsStale : Prop :=
  ∀ s t : State, Completed s t → s.BundlesFromDecoder → redirectOf s = none →
    decodes s = true → loadUse s.idex.cur s.ifid.cur = true →
    s.cfg.loadUseMode = .stale
      ∧ (usesRs (opcodeOf s.ifid.cur.instr) (functOf s.ifid.cur.instr) = true →
        idexProduces s.idex.cur (rsOf s.ifid.cur.instr) = true →
        t.idex.cur.valid = true ∧ t.idex.cur.rsVal =
          if s.cfg.policy = .forward ∧ memwbProduces t.memwb.cur (rsOf s.ifid.cur.instr) = true then
            memwbValue t.memwb.cur
          else regRead t.regs (rsOf s.ifid.cur.instr))
      ∧ (usesRt (opcodeOf s.ifid.cur.instr) (functOf s.ifid.cur.instr) = true →
        idexProduces s.idex.cur (rtOf s.ifid.cur.instr) = true →
        t.idex.cur.valid = true ∧ t.idex.cur.rtVal =
          if s.cfg.policy = .forward ∧ memwbProduces t.memwb.cur (rtOf s.ifid.cur.instr) = true then
            memwbValue t.memwb.cur
          else regRead t.regs (rtOf s.ifid.cur.instr))

/-- The fetch stage of a cycle that does not redirect: at SENTINEL or after, a bubble and the pc held; on a
stall, the slot and the pc held; else the word at the pc, a conditional branch sent where it is predicted to go
(R273, R274, R275, R337). -/
def Obligations.FetchStage : Prop :=
  ∀ s t : State, Completed s t → redirectOf s = none →
    (s.pc = s.cfg.sentinel ∨ s.haltSeen = true → t.ifid = .both .bubble ∧ t.pc = s.pc)
      ∧ (s.pc ≠ s.cfg.sentinel → s.haltSeen = false →
        (stallOf s = true → t.ifid = .both s.ifid.cur ∧ t.pc = s.pc)
          ∧ (stallOf s = false →
            t.ifid = .both { valid := true, instr := wordRead s.mem s.pc, pc4 := s.pc + 4#32 }
              ∧ t.pc =
                if (opcodeOf (wordRead s.mem s.pc) = 0x04#6 ∨ opcodeOf (wordRead s.mem s.pc) = 0x05#6)
                    ∧ predict s.cfg.predMode s.h1 s.h2 = true then
                  s.pc + 4#32 + (sext32 (immOf (wordRead s.mem s.pc)) <<< 2)
                else s.pc + 4#32))

/-- The queue over a cycle that does not redirect: the fetch's push at the tail, the resolution's pop at the
head, the push first (R337, R338, R270). -/
def Obligations.QueuePushPop : Prop :=
  ∀ s t : State, Completed s t → redirectOf s = none →
    t.pq = (s.pq ++ pushed s).drop (if resolves s then 1 else 0)

/-- A redirect takes the pc to its target, squashes the three younger slots, cancels the pending HI/LO write and
empties the queue; the redirecting slot goes on to write-back (R342, R343, R347). -/
def Obligations.FlushOnRedirect : Prop :=
  ∀ (s t : State) (target : Word), Completed s t → redirectOf s = some target →
    t.pc = target ∧ t.ifid = .both .bubble ∧ t.idex = .both .bubble ∧ t.exmem = .both .bubble
      ∧ t.hi = s.hi ∧ t.lo = s.lo ∧ t.pq = []
      ∧ t.memwb.cur.valid = true ∧ t.memwb.cur.opcode = s.exmem.cur.opcode

/-- A resolved branch: taken as its flag says, one hit or one miss as its prediction says, the history updated
towards the outcome, a redirect to the correct next address on a miss and on no hit (R227, R338, R340, R341). -/
def Obligations.BranchResolution : Prop :=
  ∀ s t : State, Completed s t → s.QueueMatches → resolves s = true → s.exmem.cur.ctrl.jump = false →
    ∃ p rest, s.pq = p :: rest
      ∧ t.h1 = updateH1 s.cfg.predMode s.h1 s.exmem.cur.zero
      ∧ t.h2 = updateH2 s.cfg.predMode s.h2 s.exmem.cur.zero
      ∧ (p = s.exmem.cur.zero → t.hits = s.hits + 1 ∧ t.misses = s.misses ∧ redirectOf s = none)
      ∧ (p ≠ s.exmem.cur.zero → t.hits = s.hits ∧ t.misses = s.misses + 1
        ∧ redirectOf s = some (if s.exmem.cur.zero then s.exmem.cur.brTarget else s.exmem.cur.pc4))

/-- Without a resolved branch the history and the branch counters stand, and only a jump redirects, to the ALU
result for `jr` and to the jump target for `j` and `jal` (R241, R330, R349). -/
def Obligations.JumpsBypassPredictor : Prop :=
  ∀ s t : State, Completed s t → resolves s = false →
    t.h1 = s.h1 ∧ t.h2 = s.h2 ∧ t.hits = s.hits ∧ t.misses = s.misses
      ∧ redirectOf s =
        if s.exmem.cur.valid = true ∧ s.exmem.cur.ctrl.jump = true then
          some (if s.exmem.cur.opcode = 0x00#6 then s.exmem.cur.aluResult else s.exmem.cur.jmpTarget)
        else none

/-- Each resolution counts exactly one hit or miss, and nothing else does (R346). -/
def Obligations.HitsPlusMisses : Prop :=
  ∀ s t : State, Completed s t →
    t.hits + t.misses = s.hits + s.misses + (if resolves s then 1 else 0)

/-- Prediction and history update in the three modes; the 2-bit history saturates (R331 to R336). -/
def Obligations.PredictorTables : Prop :=
  ∀ (h1 : OneBit) (h2 : TwoBit) (taken : Bool),
    predict .staticNT h1 h2 = false
      ∧ (predict .oneBit h1 h2 = true ↔ h1 = .t) ∧ (predict .twoBit h1 h2 = true ↔ 2 ≤ h2.level)
      ∧ updateH1 .staticNT h1 taken = h1 ∧ updateH2 .staticNT h2 taken = h2
      ∧ updateH1 .oneBit h1 taken = (if taken then .t else .nt)
      ∧ (updateH2 .twoBit h2 taken).level = (if taken then min 3 (h2.level + 1) else h2.level - 1)

/-- A stall cycle holds the consumer and the pc, pushes nothing, and sends a bubble into execute, while the
older stages go on; a flush overrides it (R306, R310). -/
def Obligations.StallHolds : Prop :=
  ∀ s t : State, Completed s t → stallOf s = true → fetchSuppressed s = false → redirectOf s = none →
    t.ifid = .both s.ifid.cur ∧ t.pc = s.pc ∧ t.idex = .both .bubble
      ∧ t.pq = s.pq.drop (if resolves s then 1 else 0)
      ∧ (s.idex.cur.valid = true → t.exmem.cur.valid = true ∧ t.exmem.cur.ctrl = s.idex.cur.ctrl)
      ∧ (s.exmem.cur.valid = true → t.memwb.cur.valid = true ∧ t.memwb.cur.ctrl = s.exmem.cur.ctrl)

/-- When the unit stalls: under `STALL`, when a register the word in decode reads is produced by a non-load in
execute or by anything in memory; never under `FORWARD`, never for register 0 (R300, R302, R305). -/
def Obligations.StallCondition : Prop :=
  ∀ s : State,
    (s.cfg.policy = .forward → stallOf s = false)
      ∧ (s.cfg.policy = .stall → (stallOf s = true ↔
        s.ifid.cur.valid = true ∧ ∃ r, r ≠ 0#5 ∧ r ∈ readsOf s.ifid.cur.instr
          ∧ ((s.idex.cur.valid = true ∧ s.idex.cur.ctrl.regWrite = true
              ∧ destOf s.idex.cur.ctrl s.idex.cur.rt s.idex.cur.rd = r ∧ s.idex.cur.ctrl.memRead = false)
            ∨ (s.exmem.cur.valid = true ∧ s.exmem.cur.ctrl.regWrite = true
              ∧ s.exmem.cur.writeReg = r))))

/-- The stall cycles of one producer under `STALL`: a non-load at distance 1 stalls two cycles, a producer at
distance 2 one, and a load at distance 1 none (R309). -/
def Obligations.StallCycles : Prop :=
  ∀ s t u : State, Completed s t → Completed t u → s.cfg.policy = .stall → s.ifid.cur.valid = true →
    fetchSuppressed s = false → redirectOf s = none → redirectOf t = none →
    ((∃ r ∈ readsOf s.ifid.cur.instr, idexProduces s.idex.cur r = true) →
        s.idex.cur.ctrl.memRead = false →
        stallOf s = true ∧ stallOf t = true ∧ stallOf u = false)
      ∧ ((∀ r ∈ readsOf s.ifid.cur.instr, idexProduces s.idex.cur r = false) →
        (∃ r ∈ readsOf s.ifid.cur.instr, exmemProduces s.exmem.cur r = true) →
        stallOf s = true ∧ stallOf t = false)
      ∧ (s.idex.cur.ctrl.memRead = true →
        (∀ r ∈ readsOf s.ifid.cur.instr, exmemProduces s.exmem.cur r = false) → stallOf s = false)

/-! ### Faults, termination, reset -/

/-- A cycle reports the first fault in the order of R412, the commit and everything after it not happening; with
none it completes. The execute stage, the pre-pass and the queue raise nothing (R284, R401, R404, R408, R412,
R413). What else the state holds after a failure is the model's choice, which R401 leaves open: log entry 5. -/
def Obligations.FirstFaultReported : Prop :=
  ∀ s : State, s.status = .running → s.ExecuteCodeValid → s.QueueMatches →
    match firstFault s with
    | some f => step s = .next { s with status := .failed ⟨f.cause, s.cycles + 1, f.info⟩ }
    | none => ∃ t, Completed s t

/-- `halt_seen` is set by the first fetch at SENTINEL and nothing clears it; the run ends `DONE` exactly at the
end of a cycle after which it is set and the pipeline is empty; any other completed cycle leaves it running (R44,
R274, R285). -/
def Obligations.Termination : Prop :=
  ∀ s t : State, Completed s t →
    (t.haltSeen = true ↔ s.haltSeen = true ∨ s.pc = s.cfg.sentinel)
      ∧ (t.status = .done ↔ t.haltSeen = true ∧ t.ifid.cur.valid = false ∧ t.idex.cur.valid = false
        ∧ t.exmem.cur.valid = false ∧ t.memwb.cur.valid = false)
      ∧ (t.status = .done ∨ t.status = .running)

/-- No cycle step applies to a run that is `DONE` or `FAILED` (R45). That a step then answers a fault is the model's
choice: log entry 7. -/
def Obligations.FinalStatusStops : Prop :=
  ∀ (s : State) (i : Instr),
    (s.status = .done → step s = .fault .runDone ∧ exec i s = .fault .runDone)
      ∧ (∀ f, s.status = .failed f → step s = .fault (.runFailed f) ∧ exec i s = .fault (.runFailed f))

/-- The counters never decrease, and no step changes the configuration (R417, R46). -/
def Obligations.CountersNeverDecrease : Prop :=
  ∀ s t : State, step s = .next t →
    t.cfg = s.cfg ∧ s.cycles ≤ t.cycles ∧ s.nR ≤ t.nR ∧ s.nI ≤ t.nI ∧ s.nJ ≤ t.nJ ∧ s.hits ≤ t.hits
      ∧ s.misses ≤ t.misses ∧ s.memAccesses ≤ t.memAccesses

/-- Only a `jr` takes the pc to SENTINEL: no branch, `j`, `jal` or sequential fetch does (R243, R226). -/
def Obligations.OnlyJrReachesSentinel : Prop :=
  ∀ s t : State, Completed s t → s.cfg.wellFormed = true → s.SlotsAligned → t.pc = s.cfg.sentinel →
    s.pc = s.cfg.sentinel
      ∨ s.exmem.cur.valid = true ∧ s.exmem.cur.ctrl.jump = true ∧ s.exmem.cur.opcode = 0x00#6
        ∧ s.exmem.cur.aluResult = s.cfg.sentinel

/-- Reset loads the image at address 0, every other byte 0, and gives every piece of state its reset value
(R451, R61, R24, R37). -/
def Obligations.ResetValues : Prop :=
  ∀ (c : Config) (img : List Byte), c.wellFormed = true → imageFits c img = true →
    ∃ s, boot c img = .next s ∧ s.cfg = c
      ∧ (∀ k, byteRead s.mem k = img.getD k 0#8)
      ∧ regRead s.regs 0#5 = 0#32 ∧ regRead s.regs 29#5 = c.spInit ∧ regRead s.regs 31#5 = c.sentinel
      ∧ (∀ i, i ≠ 29#5 → i ≠ 31#5 → regRead s.regs i = 0#32)
      ∧ s.hi = 0#32 ∧ s.lo = 0#32 ∧ s.pc = 0#32
      ∧ s.ifid = ⟨.bubble, .bubble⟩ ∧ s.idex = ⟨.bubble, .bubble⟩
      ∧ s.exmem = ⟨.bubble, .bubble⟩ ∧ s.memwb = ⟨.bubble, .bubble⟩
      ∧ s.h1 = c.predInit1 ∧ s.h2 = c.predInit2 ∧ s.pq = [] ∧ s.haltSeen = false ∧ s.status = .running
      ∧ s.cycles = 0 ∧ s.nR = 0 ∧ s.nI = 0 ∧ s.nJ = 0 ∧ s.hits = 0 ∧ s.misses = 0 ∧ s.memAccesses = 0

/-- What is refused before reset: a parameter outside its range, an image too long or no multiple of 4 (R455). -/
def Obligations.BootRefuses : Prop :=
  ∀ (c : Config) (img : List Byte),
    (c.memSize = 0 ∨ c.memSize % 4 ≠ 0 ∨ 2 ^ 32 < c.memSize ∨ c.memSize < c.spInit.toNat
        ∨ c.sentinel.toNat % 4 = 0 → boot c img = .refused .configuration)
      ∧ (c.wellFormed = true → (img.length > c.memSize ∨ img.length % 4 ≠ 0) →
        boot c img = .refused .image)

/-! ### Invariants -/

/-- Every step keeps one outstanding prediction for each conditional branch in flight, so the queue never
underflows and at a cycle boundary holds at most 3 entries (R344, R345). -/
def Obligations.QueueInvariantKept : Prop :=
  ∀ s t : State, s.QueueInvariant → step s = .next t → t.QueueInvariant ∧ t.pq.length ≤ 3

/-- Every step keeps memory the canonical form of an array of MEM_SIZE bytes (R60, R64). -/
def Obligations.MemoryCanonicalKept : Prop :=
  ∀ s t : State, s.MemoryCanonical → step s = .next t → t.MemoryCanonical

/-- Every step keeps the slots well formed: a slot is valid or `BUBBLE`, both copies equal; none in execute
carries `INVALID` (R281, R283, R154). -/
def Obligations.SlotsWellFormedKept : Prop :=
  ∀ s t : State, s.SlotsWellFormed → s.ExecuteCodeValid → step s = .next t →
    t.SlotsWellFormed ∧ t.ExecuteCodeValid

/-- Every step keeps each slot's bundle the one the decoder made for its word, and the addresses slots carry
multiples of 4 (R110, R226). -/
def Obligations.BundlesAndAddressesKept : Prop :=
  ∀ s t : State, s.BundlesFromDecoder → s.SlotsAligned → step s = .next t →
    t.BundlesFromDecoder ∧ t.SlotsAligned

/-- The invariants hold at reset, under every configuration and image the host admits (R451). -/
def Obligations.ResetMeetsInvariants : Prop :=
  ∀ (c : Config) (img : List Byte) (s : State), boot c img = .next s →
    s.QueueInvariant ∧ s.MemoryCanonical ∧ s.SlotsWellFormed ∧ s.ExecuteCodeValid ∧ s.BundlesFromDecoder
      ∧ s.SlotsAligned ∧ State.reset.QueueInvariant ∧ State.reset.MemoryCanonical
end

