-- ==== Sys2Proof/Laws/Decode.lean ====
section
/-! SUPPORT. Lemmas about the encoding: the bits of each format, the field cut of each format, and the words
as formats. -/

namespace Sys2Proof

theorem rWord_getLsbD (f : BitVec 6) (rs rt rd : RegIdx) (sh : BitVec 5) (k : Nat) :
    (rWord f rs rt rd sh).getLsbD k =
      if k < 6 then f.getLsbD k else if k < 11 then sh.getLsbD (k - 6)
      else if k < 16 then rd.getLsbD (k - 11) else if k < 21 then rt.getLsbD (k - 16)
      else if k < 26 then rs.getLsbD (k - 21) else false := by
  unfold rWord
  show BitVec.getLsbD (w := 6 + 5 + 5 + 5 + 5 + 6) (0#6 ++ rs ++ rt ++ rd ++ sh ++ f) k = _
  simp only [BitVec.getLsbD_append, Nat.sub_sub]
  grind

theorem iWord_getLsbD (op : BitVec 6) (rs rt : RegIdx) (imm : BitVec 16) (k : Nat) :
    (iWord op rs rt imm).getLsbD k =
      if k < 16 then imm.getLsbD k else if k < 21 then rt.getLsbD (k - 16)
      else if k < 26 then rs.getLsbD (k - 21) else op.getLsbD (k - 26) := by
  unfold iWord
  show BitVec.getLsbD (w := 6 + 5 + 5 + 16) (op ++ rs ++ rt ++ imm) k = _
  simp only [BitVec.getLsbD_append, Nat.sub_sub]
  grind

theorem jWord_getLsbD (op : BitVec 6) (t : BitVec 26) (k : Nat) :
    (jWord op t).getLsbD k = if k < 26 then t.getLsbD k else op.getLsbD (k - 26) := by
  unfold jWord
  show BitVec.getLsbD (w := 6 + 26) (op ++ t) k = _
  simp only [BitVec.getLsbD_append]

@[simp] theorem opcodeOf_rWord (f rs rt rd sh) : opcodeOf (rWord f rs rt rd sh) = 0 := by
  ext i hi
  simp only [opcodeOf, BitVec.getElem_extractLsb', rWord_getLsbD]
  grind

@[simp] theorem rsOf_rWord (f rs rt rd sh) : rsOf (rWord f rs rt rd sh) = rs := by
  ext i hi
  simp only [rsOf, BitVec.getElem_extractLsb', rWord_getLsbD]
  grind

@[simp] theorem rtOf_rWord (f rs rt rd sh) : rtOf (rWord f rs rt rd sh) = rt := by
  ext i hi
  simp only [rtOf, BitVec.getElem_extractLsb', rWord_getLsbD]
  grind

@[simp] theorem rdOf_rWord (f rs rt rd sh) : rdOf (rWord f rs rt rd sh) = rd := by
  ext i hi
  simp only [rdOf, BitVec.getElem_extractLsb', rWord_getLsbD]
  grind

@[simp] theorem shamtOf_rWord (f rs rt rd sh) : shamtOf (rWord f rs rt rd sh) = sh := by
  ext i hi
  simp only [shamtOf, BitVec.getElem_extractLsb', rWord_getLsbD]
  grind

@[simp] theorem functOf_rWord (f rs rt rd sh) : functOf (rWord f rs rt rd sh) = f := by
  ext i hi
  simp only [functOf, BitVec.getElem_extractLsb', rWord_getLsbD]
  grind

@[simp] theorem opcodeOf_iWord (op rs rt imm) : opcodeOf (iWord op rs rt imm) = op := by
  ext i hi
  simp only [opcodeOf, BitVec.getElem_extractLsb', iWord_getLsbD]
  grind

@[simp] theorem rsOf_iWord (op rs rt imm) : rsOf (iWord op rs rt imm) = rs := by
  ext i hi
  simp only [rsOf, BitVec.getElem_extractLsb', iWord_getLsbD]
  grind

@[simp] theorem rtOf_iWord (op rs rt imm) : rtOf (iWord op rs rt imm) = rt := by
  ext i hi
  simp only [rtOf, BitVec.getElem_extractLsb', iWord_getLsbD]
  grind

@[simp] theorem immOf_iWord (op rs rt imm) : immOf (iWord op rs rt imm) = imm := by
  ext i hi
  simp only [immOf, BitVec.getElem_extractLsb', iWord_getLsbD]
  grind

@[simp] theorem opcodeOf_jWord (op t) : opcodeOf (jWord op t) = op := by
  ext i hi
  simp only [opcodeOf, BitVec.getElem_extractLsb', jWord_getLsbD]
  grind

@[simp] theorem targetOf_jWord (op t) : targetOf (jWord op t) = t := by
  ext i hi
  simp only [targetOf, BitVec.getElem_extractLsb', jWord_getLsbD]
  grind

/-- What opcode 0 decodes to, function code by function code (R90). -/
theorem decodeSpecial_cases (w : Word) :
    (functOf w = 0x00#6 ∧ decodeSpecial w = .instr (.sll (rdOf w) (rtOf w) (shamtOf w)))
    ∨ (functOf w = 0x02#6 ∧ decodeSpecial w = .instr (.srl (rdOf w) (rtOf w) (shamtOf w)))
    ∨ (functOf w = 0x08#6 ∧ decodeSpecial w = .instr (.jr (rsOf w)))
    ∨ (functOf w = 0x10#6 ∧ decodeSpecial w = .instr (.mfhi (rdOf w)))
    ∨ (functOf w = 0x12#6 ∧ decodeSpecial w = .instr (.mflo (rdOf w)))
    ∨ (functOf w = 0x18#6 ∧ decodeSpecial w = .instr (.mult (rsOf w) (rtOf w)))
    ∨ (functOf w = 0x20#6 ∧ decodeSpecial w = .instr (.add (rdOf w) (rsOf w) (rtOf w)))
    ∨ (functOf w = 0x21#6 ∧ decodeSpecial w = .instr (.addu (rdOf w) (rsOf w) (rtOf w)))
    ∨ (functOf w = 0x22#6 ∧ decodeSpecial w = .instr (.sub (rdOf w) (rsOf w) (rtOf w)))
    ∨ (functOf w = 0x23#6 ∧ decodeSpecial w = .instr (.subu (rdOf w) (rsOf w) (rtOf w)))
    ∨ (functOf w = 0x24#6 ∧ decodeSpecial w = .instr (.and (rdOf w) (rsOf w) (rtOf w)))
    ∨ (functOf w = 0x25#6 ∧ decodeSpecial w = .instr (.or (rdOf w) (rsOf w) (rtOf w)))
    ∨ (functOf w = 0x27#6 ∧ decodeSpecial w = .instr (.nor (rdOf w) (rsOf w) (rtOf w)))
    ∨ (functOf w = 0x2A#6 ∧ decodeSpecial w = .instr (.slt (rdOf w) (rsOf w) (rtOf w)))
    ∨ (functOf w = 0x2B#6 ∧ decodeSpecial w = .instr (.sltu (rdOf w) (rsOf w) (rtOf w)))
    ∨ (functOf w ∉ [0x00#6, 0x02#6, 0x08#6, 0x10#6, 0x12#6, 0x18#6, 0x20#6, 0x21#6,
        0x22#6, 0x23#6, 0x24#6, 0x25#6, 0x27#6, 0x2A#6, 0x2B#6]
      ∧ decodeSpecial w = .unknownFunct (functOf w)) := by
  by_cases h0 : functOf w = 0x00#6
  · simp [h0, decodeSpecial]
  by_cases h1 : functOf w = 0x02#6
  · simp [h1, decodeSpecial]
  by_cases h2 : functOf w = 0x08#6
  · simp [h2, decodeSpecial]
  by_cases h3 : functOf w = 0x10#6
  · simp [h3, decodeSpecial]
  by_cases h4 : functOf w = 0x12#6
  · simp [h4, decodeSpecial]
  by_cases h5 : functOf w = 0x18#6
  · simp [h5, decodeSpecial]
  by_cases h6 : functOf w = 0x20#6
  · simp [h6, decodeSpecial]
  by_cases h7 : functOf w = 0x21#6
  · simp [h7, decodeSpecial]
  by_cases h8 : functOf w = 0x22#6
  · simp [h8, decodeSpecial]
  by_cases h9 : functOf w = 0x23#6
  · simp [h9, decodeSpecial]
  by_cases h10 : functOf w = 0x24#6
  · simp [h10, decodeSpecial]
  by_cases h11 : functOf w = 0x25#6
  · simp [h11, decodeSpecial]
  by_cases h12 : functOf w = 0x27#6
  · simp [h12, decodeSpecial]
  by_cases h13 : functOf w = 0x2A#6
  · simp [h13, decodeSpecial]
  by_cases h14 : functOf w = 0x2B#6
  · simp [h14, decodeSpecial]
  simp [h0, h1, h2, h3, h4, h5, h6, h7, h8, h9, h10, h11, h12, h13, h14, decodeSpecial]

/-- What a word decodes to, opcode by opcode (R89). -/
theorem decode_cases (w : Word) :
    (opcodeOf w = 0x00#6 ∧ decode w = decodeSpecial w)
    ∨ (opcodeOf w = 0x02#6 ∧ decode w = .instr (.j (targetOf w)))
    ∨ (opcodeOf w = 0x03#6 ∧ decode w = .instr (.jal (targetOf w)))
    ∨ (opcodeOf w = 0x04#6 ∧ decode w = .instr (.beq (rsOf w) (rtOf w) (immOf w)))
    ∨ (opcodeOf w = 0x05#6 ∧ decode w = .instr (.bne (rsOf w) (rtOf w) (immOf w)))
    ∨ (opcodeOf w = 0x08#6 ∧ decode w = .instr (.addi (rtOf w) (rsOf w) (immOf w)))
    ∨ (opcodeOf w = 0x09#6 ∧ decode w = .instr (.addiu (rtOf w) (rsOf w) (immOf w)))
    ∨ (opcodeOf w = 0x23#6 ∧ decode w = .instr (.lw (rtOf w) (rsOf w) (immOf w)))
    ∨ (opcodeOf w = 0x2B#6 ∧ decode w = .instr (.sw (rtOf w) (rsOf w) (immOf w)))
    ∨ (opcodeOf w ∉ [0x00#6, 0x02#6, 0x03#6, 0x04#6, 0x05#6, 0x08#6, 0x09#6, 0x23#6, 0x2B#6]
      ∧ decode w = .unknownOpcode (opcodeOf w)) := by
  by_cases h0 : opcodeOf w = 0x00#6
  · simp [h0, decode]
  by_cases h1 : opcodeOf w = 0x02#6
  · simp [h1, decode]
  by_cases h2 : opcodeOf w = 0x03#6
  · simp [h2, decode]
  by_cases h3 : opcodeOf w = 0x04#6
  · simp [h3, decode]
  by_cases h4 : opcodeOf w = 0x05#6
  · simp [h4, decode]
  by_cases h5 : opcodeOf w = 0x08#6
  · simp [h5, decode]
  by_cases h6 : opcodeOf w = 0x09#6
  · simp [h6, decode]
  by_cases h7 : opcodeOf w = 0x23#6
  · simp [h7, decode]
  by_cases h8 : opcodeOf w = 0x2B#6
  · simp [h8, decode]
  simp [h0, h1, h2, h3, h4, h5, h6, h7, h8, decode]

/-- The fields of a word that stand for the operands of `i`, with its opcode and function code. -/
abbrev FieldsAre (w : Word) (i : Instr) : Prop :=
  match i with
  | .add rd rs rt => opcodeOf w = 0x00#6 ∧ functOf w = 0x20#6 ∧ rdOf w = rd ∧ rsOf w = rs ∧ rtOf w = rt
  | .addu rd rs rt => opcodeOf w = 0x00#6 ∧ functOf w = 0x21#6 ∧ rdOf w = rd ∧ rsOf w = rs ∧ rtOf w = rt
  | .sub rd rs rt => opcodeOf w = 0x00#6 ∧ functOf w = 0x22#6 ∧ rdOf w = rd ∧ rsOf w = rs ∧ rtOf w = rt
  | .subu rd rs rt => opcodeOf w = 0x00#6 ∧ functOf w = 0x23#6 ∧ rdOf w = rd ∧ rsOf w = rs ∧ rtOf w = rt
  | .and rd rs rt => opcodeOf w = 0x00#6 ∧ functOf w = 0x24#6 ∧ rdOf w = rd ∧ rsOf w = rs ∧ rtOf w = rt
  | .or rd rs rt => opcodeOf w = 0x00#6 ∧ functOf w = 0x25#6 ∧ rdOf w = rd ∧ rsOf w = rs ∧ rtOf w = rt
  | .nor rd rs rt => opcodeOf w = 0x00#6 ∧ functOf w = 0x27#6 ∧ rdOf w = rd ∧ rsOf w = rs ∧ rtOf w = rt
  | .slt rd rs rt => opcodeOf w = 0x00#6 ∧ functOf w = 0x2A#6 ∧ rdOf w = rd ∧ rsOf w = rs ∧ rtOf w = rt
  | .sltu rd rs rt => opcodeOf w = 0x00#6 ∧ functOf w = 0x2B#6 ∧ rdOf w = rd ∧ rsOf w = rs ∧ rtOf w = rt
  | .sll rd rt sh => opcodeOf w = 0x00#6 ∧ functOf w = 0x00#6 ∧ rdOf w = rd ∧ rtOf w = rt ∧ shamtOf w = sh
  | .srl rd rt sh => opcodeOf w = 0x00#6 ∧ functOf w = 0x02#6 ∧ rdOf w = rd ∧ rtOf w = rt ∧ shamtOf w = sh
  | .mult rs rt => opcodeOf w = 0x00#6 ∧ functOf w = 0x18#6 ∧ rsOf w = rs ∧ rtOf w = rt
  | .mfhi rd => opcodeOf w = 0x00#6 ∧ functOf w = 0x10#6 ∧ rdOf w = rd
  | .mflo rd => opcodeOf w = 0x00#6 ∧ functOf w = 0x12#6 ∧ rdOf w = rd
  | .jr rs => opcodeOf w = 0x00#6 ∧ functOf w = 0x08#6 ∧ rsOf w = rs
  | .addi rt rs imm => opcodeOf w = 0x08#6 ∧ rsOf w = rs ∧ rtOf w = rt ∧ immOf w = imm
  | .addiu rt rs imm => opcodeOf w = 0x09#6 ∧ rsOf w = rs ∧ rtOf w = rt ∧ immOf w = imm
  | .lw rt rs imm => opcodeOf w = 0x23#6 ∧ rsOf w = rs ∧ rtOf w = rt ∧ immOf w = imm
  | .sw rt rs imm => opcodeOf w = 0x2B#6 ∧ rsOf w = rs ∧ rtOf w = rt ∧ immOf w = imm
  | .beq rs rt imm => opcodeOf w = 0x04#6 ∧ rsOf w = rs ∧ rtOf w = rt ∧ immOf w = imm
  | .bne rs rt imm => opcodeOf w = 0x05#6 ∧ rsOf w = rs ∧ rtOf w = rt ∧ immOf w = imm
  | .j t => opcodeOf w = 0x02#6 ∧ targetOf w = t
  | .jal t => opcodeOf w = 0x03#6 ∧ targetOf w = t
/-- A word that decodes to `i` has the fields of `i`. -/
theorem fields_of_decode {w : Word} {i : Instr} (h : decode w = .instr i) : FieldsAre w i := by
  rcases decode_cases w with ⟨ho, hd⟩ | hd
  · rw [hd] at h
    rcases decodeSpecial_cases w with
      h' | h' | h' | h' | h' | h' | h' | h' | h' | h' | h' | h' | h' | h' | h' | h'
    all_goals
      rw [h'.2] at h
      first | (injection h with h; subst h; simp [FieldsAre, ho, h'.1]) | (simp at h)
  · rcases hd with h' | h' | h' | h' | h' | h' | h' | h' | h'
    all_goals
      rw [h'.2] at h
      first | (injection h with h; subst h; simp [FieldsAre, h'.1]) | (simp at h)

/-- A word of opcode 0 is the R format of its own fields. -/
theorem eq_rWord_of_opcode_zero {w : Word} (h : opcodeOf w = 0) :
    w = rWord (functOf w) (rsOf w) (rtOf w) (rdOf w) (shamtOf w) := by
  have h' : ∀ k, k < 6 → w.getLsbD (26 + k) = false := by
    intro k hk
    have := congrArg (fun v : BitVec 6 => v.getLsbD k) h
    simpa [opcodeOf, BitVec.getLsbD_extractLsb', hk] using this
  apply BitVec.eq_of_getLsbD_eq
  intro k hk
  rw [rWord_getLsbD]
  simp only [functOf, rsOf, rtOf, rdOf, shamtOf, BitVec.getLsbD_extractLsb']
  have := h' (k - 26)
  grind

/-- Every word is the I format of its own fields. -/
theorem eq_iWord (w : Word) : w = iWord (opcodeOf w) (rsOf w) (rtOf w) (immOf w) := by
  apply BitVec.eq_of_getLsbD_eq
  intro k hk
  rw [iWord_getLsbD]
  simp only [opcodeOf, rsOf, rtOf, immOf, BitVec.getLsbD_extractLsb']
  grind

/-- Every word is the J format of its own fields. -/
theorem eq_jWord (w : Word) : w = jWord (opcodeOf w) (targetOf w) := by
  apply BitVec.eq_of_getLsbD_eq
  intro k hk
  rw [jWord_getLsbD]
  simp only [opcodeOf, targetOf, BitVec.getLsbD_extractLsb']
  grind

/-- A word's bytes in memory order make the word again. -/
@[simp] theorem wordOfBytes_byteOfWord (w : Word) :
    wordOfBytes (byteOfWord w 0) (byteOfWord w 1) (byteOfWord w 2) (byteOfWord w 3) = w := by
  apply BitVec.eq_of_getLsbD_eq
  intro k hk
  show BitVec.getLsbD (w := 8 + 8 + 8 + 8)
    (byteOfWord w 0 ++ byteOfWord w 1 ++ byteOfWord w 2 ++ byteOfWord w 3) k = _
  simp only [BitVec.getLsbD_append, byteOfWord, BitVec.getLsbD_extractLsb', Nat.sub_sub]
  grind

end Sys2Proof
end

