-- ==== Sys2Proof/Laws/Ops.lean ====
section
/-! SUPPORT. Lemmas about registers and memory: read after write, and that every memory operation keeps the
canonical form and the array's bounds. -/

namespace Sys2Proof.Machine

@[simp] theorem regRead_zero (f : RegFile) : regRead f 0#5 = 0#32 := by simp [regRead]

@[simp] theorem regWrite_zero (f : RegFile) (v : Word) : regWrite f 0#5 v = f := by simp [regWrite]

/-- Every register after a write to register `i`. -/
theorem regRead_regWrite (f : RegFile) (i j : RegIdx) (v : Word) :
    regRead (regWrite f i v) j = if j = i ∧ j ≠ 0#5 then v else regRead f j := by
  by_cases hj : j = 0#5
  · simp [hj]
  by_cases hi : i = 0#5
  · subst hi
    simp [hj]
  by_cases hij : j = i
  · subst hij
    simp [regRead, regWrite, hj]
  · have : i.toNat ≠ j.toNat := fun h => hij (BitVec.eq_of_toNat_eq h.symm)
    simp [regRead, regWrite, hj, hi, hij, this]

theorem byteRead_of_wfFrom {m : Memory} {lo a : Nat} (h : memWfFrom lo m = true) (ha : a < lo) :
    byteRead m a = 0#8 := by
  induction m generalizing lo with
  | nil => rfl
  | cons c m ih =>
    obtain ⟨k, v⟩ := c
    simp only [memWfFrom, Bool.and_eq_true, decide_eq_true_eq] at h
    have hk : k ≠ a := by omega
    simp only [byteRead, hk, if_false]
    exact ih h.2 (by omega)

theorem memWfFrom_mono {m : Memory} {lo lo' : Nat} (h : memWfFrom lo m = true) (hl : lo' ≤ lo) :
    memWfFrom lo' m = true := by
  cases m with
  | nil => rfl
  | cons c m =>
    obtain ⟨k, v⟩ := c
    simp only [memWfFrom, Bool.and_eq_true, decide_eq_true_eq] at h ⊢
    exact ⟨⟨by omega, h.1.2⟩, h.2⟩

theorem byteWrite_wfFrom {m : Memory} {lo a : Nat} {b : Byte} (h : memWfFrom lo m = true)
    (ha : lo ≤ a) : memWfFrom lo (byteWrite m a b) = true := by
  induction m generalizing lo with
  | nil =>
    unfold byteWrite
    split <;> simp_all [memWfFrom]
  | cons c m ih =>
    obtain ⟨k, v⟩ := c
    simp only [memWfFrom, Bool.and_eq_true, decide_eq_true_eq] at h
    unfold byteWrite
    split
    · split
      · simpa [memWfFrom] using h
      · simp_all [memWfFrom]
    · split
      · split
        · exact memWfFrom_mono h.2 (by omega)
        · simp_all [memWfFrom]
      · have := ih h.2 (by omega)
        simp_all [memWfFrom]

/-- Writing a byte keeps the canonical form. -/
theorem byteWrite_wf {m : Memory} (a : Nat) (b : Byte) (h : m.wf = true) :
    Memory.wf (byteWrite m a b) = true :=
  byteWrite_wfFrom h (Nat.zero_le a)

/-- Another address reads after a byte write as before, in any memory. -/
theorem byteRead_byteWrite_ne (m : Memory) {a x : Nat} (b : Byte) (hx : x ≠ a) :
    byteRead (byteWrite m a b) x = byteRead m x := by
  induction m with
  | nil => unfold byteWrite; split <;> simp [byteRead, Ne.symm hx]
  | cons c m ih =>
    obtain ⟨k, v⟩ := c
    unfold byteWrite
    split
    · split <;> simp [byteRead, Ne.symm hx]
    · split
      · subst_vars
        split <;> simp [byteRead, Ne.symm hx]
      · simp [byteRead, ih]

theorem byteRead_byteWrite_self_from {m : Memory} {lo a : Nat} (b : Byte)
    (h : memWfFrom lo m = true) : byteRead (byteWrite m a b) a = b := by
  induction m generalizing lo with
  | nil => unfold byteWrite; split <;> simp_all [byteRead]
  | cons c m ih =>
    obtain ⟨k, v⟩ := c
    simp only [memWfFrom, Bool.and_eq_true, decide_eq_true_eq] at h
    unfold byteWrite
    split
    · split
      · next hlt hb =>
        subst hb
        have : k ≠ a := by omega
        simp only [byteRead, this, if_false]
        exact byteRead_of_wfFrom h.2 (by omega)
      · simp [byteRead]
    · split
      · split
        · next hb =>
          subst hb
          subst_vars
          exact byteRead_of_wfFrom h.2 (by omega)
        · simp [byteRead]
      · have : k ≠ a := by omega
        simp only [byteRead, this, if_false]
        exact ih h.2

/-- The written byte reads back, in a canonical memory. -/
theorem byteRead_byteWrite_self {m : Memory} (a : Nat) (b : Byte) (h : m.wf = true) :
    byteRead (byteWrite m a b) a = b :=
  byteRead_byteWrite_self_from b h

theorem memBelow_iff {n : Nat} {m : Memory} : memBelow n m = true ↔ ∀ c ∈ m, c.1 < n := by
  simp [memBelow]

theorem mem_byteWrite {m : Memory} {a : Nat} {b : Byte} {c : Host.Cell} (h : c ∈ byteWrite m a b) :
    c ∈ m ∨ c = (a, b) := by
  induction m with
  | nil => unfold byteWrite at h; split at h <;> simp_all
  | cons d m ih =>
    obtain ⟨k, v⟩ := d
    unfold byteWrite at h
    grind

theorem byteWrite_below {n : Nat} {m : Memory} {a : Nat} (b : Byte) (h : memBelow n m = true)
    (ha : a < n) : memBelow n (byteWrite m a b) = true := by
  rw [memBelow_iff] at h ⊢
  intro c hc
  rcases mem_byteWrite hc with hm | rfl
  · exact h c hm
  · exact ha

/-- Writing bytes keeps the canonical form. -/
theorem bytesWrite_wf {m : Memory} (a : Nat) (bs : List Byte) (h : m.wf = true) :
    Memory.wf (bytesWrite m a bs) = true := by
  induction bs generalizing m a with
  | nil => exact h
  | cons b bs ih => exact ih (a + 1) (byteWrite_wf a b h)

/-- Writing bytes below `n` keeps every listed address below `n`. -/
theorem bytesWrite_below {n : Nat} {m : Memory} (a : Nat) (bs : List Byte) (h : memBelow n m = true)
    (ha : a + bs.length ≤ n) : memBelow n (bytesWrite m a bs) = true := by
  induction bs generalizing m a with
  | nil => exact h
  | cons b bs ih =>
    simp only [List.length_cons] at ha
    exact ih (a + 1) (byteWrite_below b h (by omega)) (by omega)

/-- An address outside the written bytes reads as before, in any memory. -/
theorem byteRead_bytesWrite_outside (m : Memory) (a x : Nat) (bs : List Byte)
    (hx : x < a ∨ a + bs.length ≤ x) : byteRead (bytesWrite m a bs) x = byteRead m x := by
  induction bs generalizing m a with
  | nil => rfl
  | cons b bs ih =>
    simp only [List.length_cons] at hx
    rw [bytesWrite, ih (byteWrite m a b) (a + 1) (by omega), byteRead_byteWrite_ne m b (by omega)]

/-- A written byte reads back, in a canonical memory. -/
theorem byteRead_bytesWrite_inside {m : Memory} (a k : Nat) (bs : List Byte) (h : m.wf = true)
    (hk : k < bs.length) : byteRead (bytesWrite m a bs) (a + k) = bs[k] := by
  induction bs generalizing m a k with
  | nil => exact absurd hk (Nat.not_lt_zero k)
  | cons b bs ih =>
    cases k with
    | zero =>
      rw [bytesWrite, byteRead_bytesWrite_outside _ _ _ _ (Or.inl (by omega))]
      exact byteRead_byteWrite_self a b h
    | succ k =>
      have hk' : k < bs.length := by simpa using hk
      have := ih (a + 1) k (byteWrite_wf a b h) hk'
      rw [bytesWrite, show a + (k + 1) = a + 1 + k by omega, this]
      rfl

end Sys2Proof.Machine
end

