-- ==== Sys2Proof/Laws/State.lean ====
section
/-! SUPPORT. One lemma per field per update of the state: raising a fatal error, holding the fetch, the
drained state, the commit, and the termination check. -/

namespace Sys2Proof.Machine

@[simp] theorem PipeReg.both_cur {α : Type} (v : α) : (PipeReg.both v).cur = v := rfl
@[simp] theorem PipeReg.both_nxt {α : Type} (v : α) : (PipeReg.both v).nxt = v := rfl
@[simp] theorem IfId.bubble_valid : IfId.bubble.valid = false := rfl
@[simp] theorem IdEx.bubble_valid : IdEx.bubble.valid = false := rfl
@[simp] theorem ExMem.bubble_valid : ExMem.bubble.valid = false := rfl
@[simp] theorem MemWb.bubble_valid : MemWb.bubble.valid = false := rfl

@[simp] theorem State.fail_cfg (s : State) (e : Fatal) : (s.fail e).cfg = s.cfg := rfl
@[simp] theorem State.fail_regs (s : State) (e : Fatal) : (s.fail e).regs = s.regs := rfl
@[simp] theorem State.fail_hi (s : State) (e : Fatal) : (s.fail e).hi = s.hi := rfl
@[simp] theorem State.fail_lo (s : State) (e : Fatal) : (s.fail e).lo = s.lo := rfl
@[simp] theorem State.fail_pc (s : State) (e : Fatal) : (s.fail e).pc = s.pc := rfl
@[simp] theorem State.fail_mem (s : State) (e : Fatal) : (s.fail e).mem = s.mem := rfl
@[simp] theorem State.fail_ifid (s : State) (e : Fatal) : (s.fail e).ifid = s.ifid := rfl
@[simp] theorem State.fail_idex (s : State) (e : Fatal) : (s.fail e).idex = s.idex := rfl
@[simp] theorem State.fail_exmem (s : State) (e : Fatal) : (s.fail e).exmem = s.exmem := rfl
@[simp] theorem State.fail_memwb (s : State) (e : Fatal) : (s.fail e).memwb = s.memwb := rfl
@[simp] theorem State.fail_h1 (s : State) (e : Fatal) : (s.fail e).h1 = s.h1 := rfl
@[simp] theorem State.fail_h2 (s : State) (e : Fatal) : (s.fail e).h2 = s.h2 := rfl
@[simp] theorem State.fail_pq (s : State) (e : Fatal) : (s.fail e).pq = s.pq := rfl
@[simp] theorem State.fail_haltSeen (s : State) (e : Fatal) : (s.fail e).haltSeen = s.haltSeen := rfl
@[simp] theorem State.fail_cycles (s : State) (e : Fatal) : (s.fail e).cycles = s.cycles := rfl
@[simp] theorem State.fail_nR (s : State) (e : Fatal) : (s.fail e).nR = s.nR := rfl
@[simp] theorem State.fail_nI (s : State) (e : Fatal) : (s.fail e).nI = s.nI := rfl
@[simp] theorem State.fail_nJ (s : State) (e : Fatal) : (s.fail e).nJ = s.nJ := rfl
@[simp] theorem State.fail_hits (s : State) (e : Fatal) : (s.fail e).hits = s.hits := rfl
@[simp] theorem State.fail_misses (s : State) (e : Fatal) : (s.fail e).misses = s.misses := rfl
@[simp] theorem State.fail_memAccesses (s : State) (e : Fatal) : (s.fail e).memAccesses = s.memAccesses := rfl
@[simp] theorem State.fail_status (s : State) (e : Fatal) :
    (s.fail e).status = .failed ⟨e.cause, s.cycles + 1, e.info⟩ := rfl

@[simp] theorem State.fetchHeld_cfg (s : State) : s.fetchHeld.cfg = s.cfg := rfl
@[simp] theorem State.fetchHeld_regs (s : State) : s.fetchHeld.regs = s.regs := rfl
@[simp] theorem State.fetchHeld_hi (s : State) : s.fetchHeld.hi = s.hi := rfl
@[simp] theorem State.fetchHeld_lo (s : State) : s.fetchHeld.lo = s.lo := rfl
@[simp] theorem State.fetchHeld_pc (s : State) : s.fetchHeld.pc = s.pc := rfl
@[simp] theorem State.fetchHeld_mem (s : State) : s.fetchHeld.mem = s.mem := rfl
@[simp] theorem State.fetchHeld_ifid (s : State) : s.fetchHeld.ifid = s.ifid := rfl
@[simp] theorem State.fetchHeld_idex (s : State) : s.fetchHeld.idex = s.idex := rfl
@[simp] theorem State.fetchHeld_exmem (s : State) : s.fetchHeld.exmem = s.exmem := rfl
@[simp] theorem State.fetchHeld_memwb (s : State) : s.fetchHeld.memwb = s.memwb := rfl
@[simp] theorem State.fetchHeld_h1 (s : State) : s.fetchHeld.h1 = s.h1 := rfl
@[simp] theorem State.fetchHeld_h2 (s : State) : s.fetchHeld.h2 = s.h2 := rfl
@[simp] theorem State.fetchHeld_pq (s : State) : s.fetchHeld.pq = s.pq := rfl
@[simp] theorem State.fetchHeld_status (s : State) : s.fetchHeld.status = s.status := rfl
@[simp] theorem State.fetchHeld_cycles (s : State) : s.fetchHeld.cycles = s.cycles := rfl
@[simp] theorem State.fetchHeld_nR (s : State) : s.fetchHeld.nR = s.nR := rfl
@[simp] theorem State.fetchHeld_nI (s : State) : s.fetchHeld.nI = s.nI := rfl
@[simp] theorem State.fetchHeld_nJ (s : State) : s.fetchHeld.nJ = s.nJ := rfl
@[simp] theorem State.fetchHeld_hits (s : State) : s.fetchHeld.hits = s.hits := rfl
@[simp] theorem State.fetchHeld_misses (s : State) : s.fetchHeld.misses = s.misses := rfl
@[simp] theorem State.fetchHeld_memAccesses (s : State) : s.fetchHeld.memAccesses = s.memAccesses := rfl
@[simp] theorem State.fetchHeld_haltSeen (s : State) : s.fetchHeld.haltSeen = true := rfl

@[simp] theorem State.drained_cfg (s : State) : s.drained.cfg = s.cfg := rfl
@[simp] theorem State.drained_regs (s : State) : s.drained.regs = s.regs := rfl
@[simp] theorem State.drained_hi (s : State) : s.drained.hi = s.hi := rfl
@[simp] theorem State.drained_lo (s : State) : s.drained.lo = s.lo := rfl
@[simp] theorem State.drained_pc (s : State) : s.drained.pc = s.pc := rfl
@[simp] theorem State.drained_mem (s : State) : s.drained.mem = s.mem := rfl
@[simp] theorem State.drained_ifid (s : State) : s.drained.ifid = .both .bubble := rfl
@[simp] theorem State.drained_idex (s : State) : s.drained.idex = .both .bubble := rfl
@[simp] theorem State.drained_exmem (s : State) : s.drained.exmem = .both .bubble := rfl
@[simp] theorem State.drained_memwb (s : State) : s.drained.memwb = .both .bubble := rfl
@[simp] theorem State.drained_h1 (s : State) : s.drained.h1 = s.h1 := rfl
@[simp] theorem State.drained_h2 (s : State) : s.drained.h2 = s.h2 := rfl
@[simp] theorem State.drained_pq (s : State) : s.drained.pq = s.pq := rfl
@[simp] theorem State.drained_haltSeen (s : State) : s.drained.haltSeen = true := rfl
@[simp] theorem State.drained_status (s : State) : s.drained.status = .done := rfl
@[simp] theorem State.drained_cycles (s : State) : s.drained.cycles = s.cycles + 5 := rfl
@[simp] theorem State.drained_nR (s : State) : s.drained.nR = s.nR := rfl
@[simp] theorem State.drained_nI (s : State) : s.drained.nI = s.nI := rfl
@[simp] theorem State.drained_nJ (s : State) : s.drained.nJ = s.nJ := rfl
@[simp] theorem State.drained_hits (s : State) : s.drained.hits = s.hits := rfl
@[simp] theorem State.drained_misses (s : State) : s.drained.misses = s.misses := rfl
@[simp] theorem State.drained_memAccesses (s : State) : s.drained.memAccesses = s.memAccesses := rfl

@[simp] theorem commit_cfg (s : State) (p : Phases) : (commit s p).cfg = s.cfg := rfl
@[simp] theorem commit_regs (s : State) (p : Phases) : (commit s p).regs = p.regs := rfl
@[simp] theorem commit_hi (s : State) (p : Phases) : (commit s p).hi = hiAfter s.hi (afterFlush s.cfg p).hilo := rfl
@[simp] theorem commit_lo (s : State) (p : Phases) : (commit s p).lo = loAfter s.lo (afterFlush s.cfg p).hilo := rfl
@[simp] theorem commit_pc (s : State) (p : Phases) : (commit s p).pc = (afterFlush s.cfg p).pc := rfl
@[simp] theorem commit_mem (s : State) (p : Phases) : (commit s p).mem = p.memory.mem := rfl
@[simp] theorem commit_ifid (s : State) (p : Phases) : (commit s p).ifid = .both (afterFlush s.cfg p).ifid := rfl
@[simp] theorem commit_idex (s : State) (p : Phases) : (commit s p).idex = .both (afterFlush s.cfg p).idex := rfl
@[simp] theorem commit_exmem (s : State) (p : Phases) : (commit s p).exmem = .both (afterFlush s.cfg p).exmem := rfl
@[simp] theorem commit_memwb (s : State) (p : Phases) : (commit s p).memwb = .both p.memory.memwb := rfl
@[simp] theorem commit_h1 (s : State) (p : Phases) : (commit s p).h1 = p.memory.pred.h1 := rfl
@[simp] theorem commit_h2 (s : State) (p : Phases) : (commit s p).h2 = p.memory.pred.h2 := rfl
@[simp] theorem commit_pq (s : State) (p : Phases) : (commit s p).pq = (afterFlush s.cfg p).pq := rfl
@[simp] theorem commit_haltSeen (s : State) (p : Phases) : (commit s p).haltSeen = p.fetch.haltSeen := rfl
@[simp] theorem commit_status (s : State) (p : Phases) : (commit s p).status = s.status := rfl
@[simp] theorem commit_cycles (s : State) (p : Phases) : (commit s p).cycles = s.cycles + 1 := rfl
@[simp] theorem commit_nR (s : State) (p : Phases) : (commit s p).nR = p.histogram.nR := rfl
@[simp] theorem commit_nI (s : State) (p : Phases) : (commit s p).nI = p.histogram.nI := rfl
@[simp] theorem commit_nJ (s : State) (p : Phases) : (commit s p).nJ = p.histogram.nJ := rfl
@[simp] theorem commit_hits (s : State) (p : Phases) : (commit s p).hits = p.memory.pred.hits := rfl
@[simp] theorem commit_misses (s : State) (p : Phases) : (commit s p).misses = p.memory.pred.misses := rfl
@[simp] theorem commit_memAccesses (s : State) (p : Phases) : (commit s p).memAccesses = p.memory.memAccesses := rfl

@[simp] theorem terminate_cfg (s : State) : (terminate s).cfg = s.cfg := by
  unfold terminate; split <;> rfl
@[simp] theorem terminate_regs (s : State) : (terminate s).regs = s.regs := by
  unfold terminate; split <;> rfl
@[simp] theorem terminate_hi (s : State) : (terminate s).hi = s.hi := by
  unfold terminate; split <;> rfl
@[simp] theorem terminate_lo (s : State) : (terminate s).lo = s.lo := by
  unfold terminate; split <;> rfl
@[simp] theorem terminate_pc (s : State) : (terminate s).pc = s.pc := by
  unfold terminate; split <;> rfl
@[simp] theorem terminate_mem (s : State) : (terminate s).mem = s.mem := by
  unfold terminate; split <;> rfl
@[simp] theorem terminate_ifid (s : State) : (terminate s).ifid = s.ifid := by
  unfold terminate; split <;> rfl
@[simp] theorem terminate_idex (s : State) : (terminate s).idex = s.idex := by
  unfold terminate; split <;> rfl
@[simp] theorem terminate_exmem (s : State) : (terminate s).exmem = s.exmem := by
  unfold terminate; split <;> rfl
@[simp] theorem terminate_memwb (s : State) : (terminate s).memwb = s.memwb := by
  unfold terminate; split <;> rfl
@[simp] theorem terminate_h1 (s : State) : (terminate s).h1 = s.h1 := by
  unfold terminate; split <;> rfl
@[simp] theorem terminate_h2 (s : State) : (terminate s).h2 = s.h2 := by
  unfold terminate; split <;> rfl
@[simp] theorem terminate_pq (s : State) : (terminate s).pq = s.pq := by
  unfold terminate; split <;> rfl
@[simp] theorem terminate_haltSeen (s : State) : (terminate s).haltSeen = s.haltSeen := by
  unfold terminate; split <;> rfl
@[simp] theorem terminate_cycles (s : State) : (terminate s).cycles = s.cycles := by
  unfold terminate; split <;> rfl
@[simp] theorem terminate_nR (s : State) : (terminate s).nR = s.nR := by
  unfold terminate; split <;> rfl
@[simp] theorem terminate_nI (s : State) : (terminate s).nI = s.nI := by
  unfold terminate; split <;> rfl
@[simp] theorem terminate_nJ (s : State) : (terminate s).nJ = s.nJ := by
  unfold terminate; split <;> rfl
@[simp] theorem terminate_hits (s : State) : (terminate s).hits = s.hits := by
  unfold terminate; split <;> rfl
@[simp] theorem terminate_misses (s : State) : (terminate s).misses = s.misses := by
  unfold terminate; split <;> rfl
@[simp] theorem terminate_memAccesses (s : State) : (terminate s).memAccesses = s.memAccesses := by
  unfold terminate; split <;> rfl

/-- The status after the termination check (R285). -/
theorem terminate_status (s : State) :
    (terminate s).status = if s.haltSeen && s.empty then .done else s.status := by
  unfold terminate; split <;> rfl

end Sys2Proof.Machine
end

