-- ==== Sys2Proof/Laws/Stages.lean ====
section
/-! SUPPORT. For each stage driver, one lemma that says all it can answer. -/

namespace Sys2Proof.Machine

/-- The pre-pass never raises: a 5-bit index is in range (R22, R404). -/
theorem prePass_eq (f : RegFile) (w : MemWb) :
    prePass f w =
      .ok (if w.valid && w.ctrl.regWrite then regWrite f w.writeReg (memwbValue w) else f) := by
  unfold prePass
  split
  · have := w.writeReg.isLt
    rw [if_neg (by omega)]
  · rfl

/-- Everything fetch can answer without raising (R273, R274, R306). -/
theorem fetchStage_ok {s : State} {stall : Bool} {w : Word} {o : FetchOut}
    (h : fetchStage s stall w = .ok o) :
    (fetchSuppressed s = true ∧ o = ⟨.bubble, s.pc, s.pq, true⟩)
    ∨ (fetchSuppressed s = false ∧ stall = true ∧ o = ⟨s.ifid.cur, s.pc, s.pq, s.haltSeen⟩)
    ∨ (fetchSuppressed s = false ∧ stall = false ∧ inRange s.cfg s.pc = true ∧ aligned s.pc = true
        ∧ isBranchWord w = true
        ∧ o = ⟨⟨true, w, s.pc + 4#32⟩,
            if predict s.cfg.predMode s.h1 s.h2 then branchTarget (s.pc + 4#32) (sext32 (immOf w))
            else s.pc + 4#32,
            s.pq ++ [predict s.cfg.predMode s.h1 s.h2], s.haltSeen⟩)
    ∨ (fetchSuppressed s = false ∧ stall = false ∧ inRange s.cfg s.pc = true ∧ aligned s.pc = true
        ∧ isBranchWord w = false
        ∧ o = ⟨⟨true, w, s.pc + 4#32⟩, s.pc + 4#32, s.pq, s.haltSeen⟩) := by
  unfold fetchStage at h
  by_cases h1 : fetchSuppressed s = true
  · simp_all
  by_cases h2 : stall = true
  · simp_all
  by_cases h3 : inRange s.cfg s.pc = true
  swap
  · simp_all
  by_cases h4 : aligned s.pc = true
  swap
  · simp_all
  by_cases h5 : isBranchWord w = true <;> simp_all

/-- Everything decode can answer without raising (R276). -/
theorem decodeStage_ok {c : Config} {regs : RegFile} {f : IfId} {e : IdEx} {stall : Bool} {d : IdEx}
    (h : decodeStage c regs f e stall = .ok d) :
    ((f.valid = false ∨ stall = true) ∧ d = .bubble)
    ∨ (f.valid = true ∧ stall = false ∧ d = decodedSlot regs f ∧ d.aluctl ≠ .invalid
        ∧ (c.loadUseMode = .fault → loadUse e f = false)) := by
  unfold decodeStage at h
  by_cases h1 : f.valid = true
  swap
  · simp_all
  by_cases h2 : stall = true
  · simp_all
  by_cases h3 : (decodedSlot regs f).aluctl = .invalid
  · simp_all
  by_cases h4 : (c.loadUseMode == .fault && loadUse e f) = true
  · simp_all
  · simp only [h1, h2, h3, h4] at h
    simp_all

/-- Everything execute can answer without raising (R277, R278). -/
theorem executeStage_ok {c : Config} {e : IdEx} {hi lo : Word} {x : ExMem} {hl : Option (Word × Word)}
    (h : executeStage c e hi lo = .ok (x, hl)) :
    (e.valid = false ∧ x = .bubble ∧ hl = none)
    ∨ (e.valid = true ∧ ∃ out,
        alu c.sltMode e.aluctl e.rsVal (aluOperandB e.ctrl.aluSrc e.imm e.rtVal) e.shamt hi lo = some out
        ∧ x = executedSlot c e out ∧ hl = out.hilo) := by
  unfold executeStage at h
  by_cases h1 : e.valid = true
  · right
    simp only [h1, Bool.not_true, Bool.false_eq_true, if_false] at h
    split at h <;> simp_all
  · left
    simp_all

/-- Execute raises only on an `INVALID` code (R154, R413). -/
theorem executeStage_of_code_valid {c : Config} {e : IdEx} (hi lo : Word)
    (h : e.valid = true → e.aluctl ≠ .invalid) : ∃ x hl, executeStage c e hi lo = .ok (x, hl) := by
  unfold executeStage
  by_cases h1 : e.valid = true
  · have := h h1
    cases hc : e.aluctl <;> simp_all [alu]
  · simp_all

theorem dataCheck_ok {c : Config} {ea : Word} (h : dataCheck c ea = .ok ()) :
    inRange c ea = true ∧ aligned ea = true := by
  unfold dataCheck at h
  by_cases h1 : inRange c ea = true
  swap
  · simp_all
  by_cases h2 : aligned ea = true <;> simp_all

theorem dataCheck_of_ok {c : Config} {ea : Word} (h1 : inRange c ea = true) (h2 : aligned ea = true) :
    dataCheck c ea = .ok () := by
  simp [dataCheck, h1, h2]

/-- Everything a resolved branch's validation can answer without raising (R338, R340, R341). -/
theorem validate_ok {mode : PredMode} {p p' : PredState} {taken : Bool} {next pc4 : Word}
    {r : Option Word} (h : validate mode p taken next pc4 = .ok (p', r)) :
    ∃ head rest, p.pq = head :: rest
      ∧ p'.h1 = updateH1 mode p.h1 taken ∧ p'.h2 = updateH2 mode p.h2 taken ∧ p'.pq = rest
      ∧ ((head = taken ∧ p'.hits = p.hits + 1 ∧ p'.misses = p.misses ∧ r = none)
        ∨ (head ≠ taken ∧ p'.hits = p.hits ∧ p'.misses = p.misses + 1 ∧ r = some next)) := by
  unfold validate at h
  split at h
  · simp at h
  · next head rest hq =>
    refine ⟨head, rest, hq, ?_⟩
    by_cases ht : head = taken
    · simp only [ht, beq_self_eq_true, if_true, Except.ok.injEq, Prod.mk.injEq] at h
      obtain ⟨rfl, rfl⟩ := h
      simp [ht]
    · have hb : (head == taken) = false := by simpa using ht
      simp only [hb, Bool.false_eq_true, if_false, Except.ok.injEq, Prod.mk.injEq] at h
      obtain ⟨rfl, rfl⟩ := h
      simp [ht]

/-- Everything the memory stage can answer without raising (R279). -/
theorem memoryStage_ok {c : Config} {m : ExMem} {mem : Memory} {n : Nat} {pred : PredState} {o : MemOut}
    (h : memoryStage c m mem n pred = .ok o) :
    (m.valid = false ∧ o = ⟨.bubble, mem, n, pred, none⟩)
    ∨ (m.valid = true ∧ accessCheck c m = .ok ()
        ∧ o.memwb = accessedSlot m (loadedData m mem)
        ∧ o.mem = storedMem m mem
        ∧ o.memAccesses = n + accessCount m
        ∧ ∃ miss, resolveBranch c.predMode m pred = .ok (o.pred, miss)
          ∧ o.redirect = (if m.ctrl.jump then some (jumpDestination m) else miss)) := by
  unfold memoryStage at h
  by_cases hv : m.valid = true
  swap
  · left
    simp_all
  right
  simp only [hv, Bool.not_true, Bool.false_eq_true, if_false] at h
  split at h
  · simp at h
  next hc =>
  split at h
  · simp at h
  next p' miss hval =>
  simp only [Except.ok.injEq] at h
  subst h
  exact ⟨hv, hc, rfl, rfl, rfl, miss, hval, rfl⟩

/-- The checks of a slot that accesses memory, when they pass (R64, R65). -/
theorem accessCheck_ok {c : Config} {m : ExMem} (h : accessCheck c m = .ok ())
    (ha : m.ctrl.memRead = true ∨ m.ctrl.memWrite = true) :
    inRange c m.aluResult = true ∧ aligned m.aluResult = true := by
  apply dataCheck_ok
  rw [← h, accessCheck, if_pos (by simpa using ha)]

theorem accessCheck_of_ok {c : Config} {m : ExMem}
    (h : m.ctrl.memRead = true ∨ m.ctrl.memWrite = true →
      inRange c m.aluResult = true ∧ aligned m.aluResult = true) : accessCheck c m = .ok () := by
  unfold accessCheck
  split
  · next hx => exact dataCheck_of_ok (h (by simpa using hx)).1 (h (by simpa using hx)).2
  · rfl

/-- The memory stage on a slot it can serve: the data access checked, and where the slot is a branch its
validation answered. -/
theorem memoryStage_of_valid {c : Config} {m : ExMem} (mem : Memory) (n : Nat) {pred pred' : PredState}
    {miss : Option Word} (hv : m.valid = true) (hc : accessCheck c m = .ok ())
    (hb : resolveBranch c.predMode m pred = .ok (pred', miss)) :
    memoryStage c m mem n pred = .ok
      { memwb := accessedSlot m (loadedData m mem)
        mem := storedMem m mem
        memAccesses := n + accessCount m
        pred := pred'
        redirect := if m.ctrl.jump then some (jumpDestination m) else miss } := by
  simp [memoryStage, hv, hc, hb]

theorem memoryStage_bubble {c : Config} {m : ExMem} (mem : Memory) (n : Nat) (pred : PredState)
    (hv : m.valid = false) : memoryStage c m mem n pred = .ok ⟨.bubble, mem, n, pred, none⟩ := by
  simp [memoryStage, hv]

theorem executeStage_bubble {c : Config} {e : IdEx} (hi lo : Word) (hv : e.valid = false) :
    executeStage c e hi lo = .ok (.bubble, none) := by
  simp [executeStage, hv]

theorem decodeStage_bubble {c : Config} {f : IfId} (regs : RegFile) (e : IdEx) (stall : Bool)
    (hv : f.valid = false) : decodeStage c regs f e stall = .ok .bubble := by
  simp [decodeStage, hv]

theorem retire_bubble {w : MemWb} (h : Histogram) (hv : w.valid = false) : retire w h = h := by
  simp [retire, hv]

end Sys2Proof.Machine
end

