-- ==== Sys2Proof/Laws/Cycle.lean ====
section
/-! SUPPORT. What one step can do: the phases of a cycle that completes, the step as a cycle, and a cycle that
a fatal error ends. -/

namespace Sys2Proof.Machine

/-- The phases of a cycle that raises nothing, each on what the ones before it wrote (R270). -/
theorem phases_ok {s : State} {w : Word} {p : Phases} :
    phases s w = .ok p ↔
      p.stall = stallOf s
      ∧ prePass s.regs s.memwb.cur = .ok p.regs
      ∧ fetchStage s (stallOf s) w = .ok p.fetch
      ∧ decodeStage s.cfg p.regs s.ifid.cur s.idex.cur (stallOf s) = .ok p.decoded
      ∧ executeStage s.cfg s.idex.cur s.hi s.lo = .ok (p.executed, p.hilo)
      ∧ memoryStage s.cfg s.exmem.cur s.mem s.memAccesses (predOf s p.fetch.pq) = .ok p.memory
      ∧ p.histogram = retire s.memwb.cur ⟨s.nR, s.nI, s.nJ⟩ := by
  unfold phases
  constructor
  · intro h
    simp only [bind, Except.bind] at h
    split at h
    · simp at h
    next r hr =>
    split at h
    · simp at h
    next f hf =>
    split at h
    · simp at h
    next d hd =>
    split at h
    · simp at h
    next x hx =>
    obtain ⟨x1, x2⟩ := x
    simp only at h
    split at h
    · simp at h
    next m hm =>
    simp only [Except.ok.injEq] at h
    subst h
    exact ⟨rfl, hr, hf, hd, hx, hm, rfl⟩
  · rintro ⟨h1, h2, h3, h4, h5, h6, h7⟩
    simp only [bind, Except.bind, h2, h3, h4, h5, h6]
    cases p
    simp_all

/-- Every meaning is the cycle that takes its instruction in. -/
theorem exec_eq_issue (i : Instr) (s : State) : exec i s = issue i s := by
  cases i <;> rfl

/-- A fetch that reads nothing does not depend on the word (R274, R306, R66). -/
theorem fetchStage_word_irrelevant {s : State} (h : fetchReads s = false) (w w' : Word) :
    fetchStage s (stallOf s) w = fetchStage s (stallOf s) w' := by
  unfold fetchStage
  by_cases h1 : fetchSuppressed s = true
  · simp [h1]
  by_cases h2 : stallOf s = true
  · simp [h1, h2]
  by_cases h3 : inRange s.cfg s.pc = true
  swap
  · simp [h1, h2, h3]
  by_cases h4 : aligned s.pc = true
  · simp_all [fetchReads]
  · simp [h1, h2, h3, h4]

theorem phases_word_irrelevant {s : State} (h : fetchReads s = false) (w w' : Word) :
    phases s w = phases s w' := by
  simp only [phases, fetchStage_word_irrelevant h w w']

theorem clock_word_irrelevant {s : State} (h : fetchReads s = false) (w w' : Word) :
    clock s w = clock s w' := by
  unfold clock
  rw [phases_word_irrelevant h w w']

/-- One step is one cycle on the word at the pc. -/
theorem step_eq_clockOutcome (s : State) : step s = clockOutcome s (fetchWord s) := by
  unfold step
  by_cases h : fetchReads s = true
  · simp only [h, if_true]
    split
    · next i hi => simp [exec_eq_issue, issue, wordAtPc, hi]
    · rfl
    · rfl
    · rfl
  · have h' : fetchReads s = false := by simpa using h
    simp only [h', Bool.false_eq_true, if_false]
    unfold clockOutcome
    split
    · rw [clock_word_irrelevant h']
    · rfl
    · rfl

/-- One step of a running machine. -/
theorem step_running {s : State} (h : s.status = .running) : step s = .next (clock s (fetchWord s)) := by
  rw [step_eq_clockOutcome, clockOutcome, h]

/-- One meaning on a running machine. -/
theorem exec_running {s : State} (i : Instr) (h : s.status = .running) :
    exec i s = .next (clock s (wordAtPc i s)) := by
  rw [exec_eq_issue, issue, clockOutcome, h]

/-- A step that answers a next state ran a cycle of a running machine. -/
theorem step_next {s t : State} (h : step s = .next t) :
    s.status = .running ∧ t = clock s (fetchWord s) := by
  rw [step_eq_clockOutcome, clockOutcome] at h
  split at h
  · next hs => exact ⟨hs, by simpa using h.symm⟩
  · simp at h
  · simp at h

/-- The two ways a cycle ends: a fatal error, with nothing committed, or a commit and the termination check
(R284, R283, R285). -/
theorem clock_cases (s : State) (w : Word) :
    (∃ e, phases s w = .error e ∧ clock s w = s.fail e)
    ∨ (∃ p, phases s w = .ok p ∧ clock s w = terminate (commit s p)) := by
  unfold clock
  cases h : phases s w with
  | error e => exact Or.inl ⟨e, rfl, rfl⟩
  | ok p => exact Or.inr ⟨p, rfl, rfl⟩

/-- A completed cycle committed (R283). -/
theorem completed_commit {s t : State} (h : Completed s t) :
    s.status = .running ∧ ∃ p, phases s (fetchWord s) = .ok p ∧ t = terminate (commit s p) := by
  obtain ⟨hs, hc⟩ := h
  obtain ⟨hr, rfl⟩ := step_next hs
  refine ⟨hr, ?_⟩
  rcases clock_cases s (fetchWord s) with ⟨e, _, h2⟩ | h2
  · rw [h2] at hc
    simp at hc
  · exact h2

theorem redirectOf_of_ok {s : State} {p : Phases} (h : phases s (fetchWord s) = .ok p) :
    redirectOf s = p.memory.redirect := by
  simp [redirectOf, h]

end Sys2Proof.Machine
end

