-- ==== Sys2Proof/Laws/Alone.lean ====
section
/-! SUPPORT. One instruction alone in the pipeline: what each of its five cycles does. -/

namespace Sys2Proof.Machine

@[simp] theorem memwbProduces_bubble (r : RegIdx) : memwbProduces .bubble r = false := rfl
@[simp] theorem exmemProduces_bubble (r : RegIdx) : exmemProduces .bubble r = false := rfl
@[simp] theorem idexProduces_bubble (r : RegIdx) : idexProduces .bubble r = false := rfl

@[simp] theorem prePass_bubble (f : RegFile) : prePass f .bubble = .ok f := rfl

@[simp] theorem loadUse_of_bubble (f : IfId) : loadUse .bubble f = false := rfl

@[simp] theorem decodeStage_of_bubble (c : Config) (regs : RegFile) (e : IdEx) (stall : Bool) :
    decodeStage c regs .bubble e stall = .ok .bubble := decodeStage_bubble regs e stall rfl

@[simp] theorem executeStage_of_bubble (c : Config) (hi lo : Word) :
    executeStage c .bubble hi lo = .ok (.bubble, none) := executeStage_bubble hi lo rfl

@[simp] theorem memoryStage_of_bubble (c : Config) (mem : Memory) (n : Nat) (pred : PredState) :
    memoryStage c .bubble mem n pred = .ok ⟨.bubble, mem, n, pred, none⟩ :=
  memoryStage_bubble mem n pred rfl

@[simp] theorem retire_of_bubble (h : Histogram) : retire .bubble h = h := retire_bubble h rfl

@[simp] theorem forwardInto_bubbles (d : IdEx) : forwardInto .bubble .bubble d = d := by
  simp [forwardInto, forwardOperand]

/-- Nothing in flight past decode: no stall (R305). -/
theorem stallOf_of_bubbles {s : State} (h1 : s.idex.cur = .bubble) (h2 : s.exmem.cur = .bubble) :
    stallOf s = false := by
  simp [stallOf, stallNeeded, h1, h2]

/-- Nothing in decode: no stall (R304). -/
theorem stallOf_of_invalid {s : State} (h : s.ifid.cur.valid = false) : stallOf s = false := by
  simp [stallOf, stallNeeded, consumerReads, h]

/-- A running machine whose fetch is held, with these four slots in flight. -/
structure State.Alone (s : State) (f : IfId) (e : IdEx) (m : ExMem) (w : MemWb) : Prop where
  running : s.status = .running
  halted : s.haltSeen = true
  ifid : s.ifid = .both f
  idex : s.idex = .both e
  exmem : s.exmem = .both m
  memwb : s.memwb = .both w

/-- The decode cycle of a slot alone. -/
theorem step_alone_decode {s : State} {f : IfId} (h : s.Alone f .bubble .bubble .bubble)
    (hv : f.valid = true) (hc : (decodedSlot s.regs f).aluctl ≠ .invalid) :
    step s = .next { s with
      ifid := .both .bubble
      idex := .both (decodedSlot s.regs f)
      cycles := s.cycles + 1 } := by
  have hst : stallOf s = false := stallOf_of_bubbles (by rw [h.idex]; rfl) (by rw [h.exmem]; rfl)
  have hd : (decodedSlot s.regs f).valid = true := rfl
  rw [step_running h.running]
  have hp : phases s (fetchWord s) = .ok
      { stall := false
        regs := s.regs
        fetch := ⟨.bubble, s.pc, s.pq, true⟩
        decoded := decodedSlot s.regs f
        executed := .bubble
        hilo := none
        memory := ⟨.bubble, s.mem, s.memAccesses, predOf s s.pq, none⟩
        histogram := ⟨s.nR, s.nI, s.nJ⟩ } := by
    rw [phases_ok]
    simp [hst, h.ifid, h.idex, h.exmem, h.memwb, fetchStage, fetchSuppressed, h.halted, decodeStage, hv, hc]
  have hr := h.running
  have hh := h.halted
  simp only [clock, hp, commit, afterFlush, forwarded, hd, Bool.and_true, forwardInto_bubbles, hiAfter,
    loAfter, predOf, terminate, State.empty, PipeReg.both_cur, Bool.not_true, Bool.and_false,
    Bool.false_and, Bool.false_eq_true, if_false, ite_self]
  simp only [← h.exmem, ← h.memwb, ← hh]

/-- The execute cycle of a slot alone. -/
theorem step_alone_execute {s : State} {e : IdEx} (h : s.Alone .bubble e .bubble .bubble)
    (hv : e.valid = true) {out : AluOut}
    (ho : alu s.cfg.sltMode e.aluctl e.rsVal (aluOperandB e.ctrl.aluSrc e.imm e.rtVal) e.shamt s.hi s.lo
      = some out) :
    step s = .next { s with
      idex := .both .bubble
      exmem := .both (executedSlot s.cfg e out)
      hi := hiAfter s.hi out.hilo
      lo := loAfter s.lo out.hilo
      cycles := s.cycles + 1 } := by
  have hst : stallOf s = false := stallOf_of_invalid (by rw [h.ifid]; rfl)
  have hd : (executedSlot s.cfg e out).valid = true := rfl
  rw [step_running h.running]
  have hp : phases s (fetchWord s) = .ok
      { stall := false
        regs := s.regs
        fetch := ⟨.bubble, s.pc, s.pq, true⟩
        decoded := .bubble
        executed := executedSlot s.cfg e out
        hilo := out.hilo
        memory := ⟨.bubble, s.mem, s.memAccesses, predOf s s.pq, none⟩
        histogram := ⟨s.nR, s.nI, s.nJ⟩ } := by
    rw [phases_ok]
    simp [hst, h.ifid, h.idex, h.exmem, h.memwb, fetchStage, fetchSuppressed, h.halted, executeStage, hv, ho]
  have hh := h.halted
  simp only [clock, hp, commit, afterFlush, forwarded, IdEx.bubble_valid, hd, Bool.and_false, predOf,
    terminate, State.empty, PipeReg.both_cur, Bool.not_true, Bool.false_and, Bool.false_eq_true, if_false]
  simp only [← h.ifid, ← h.memwb, ← hh]

/-- The memory cycle of a slot alone; `o` is what the memory stage answers. -/
theorem step_alone_memory {s : State} {m : ExMem} (h : s.Alone .bubble .bubble m .bubble)
    {o : MemOut} (ho : memoryStage s.cfg m s.mem s.memAccesses (predOf s s.pq) = .ok o)
    (hv : o.memwb.valid = true) :
    step s = .next { s with
      exmem := .both .bubble
      memwb := .both o.memwb
      mem := o.mem
      memAccesses := o.memAccesses
      h1 := o.pred.h1
      h2 := o.pred.h2
      hits := o.pred.hits
      misses := o.pred.misses
      pq := if o.redirect.isSome then [] else o.pred.pq
      pc := o.redirect.getD s.pc
      cycles := s.cycles + 1 } := by
  have hst : stallOf s = false := stallOf_of_invalid (by rw [h.ifid]; rfl)
  rw [step_running h.running]
  have hp : phases s (fetchWord s) = .ok
      { stall := false
        regs := s.regs
        fetch := ⟨.bubble, s.pc, s.pq, true⟩
        decoded := .bubble
        executed := .bubble
        hilo := none
        memory := o
        histogram := ⟨s.nR, s.nI, s.nJ⟩ } := by
    rw [phases_ok]
    simp [hst, h.ifid, h.idex, h.exmem, h.memwb, fetchStage, fetchSuppressed, h.halted, ho]
  have hh := h.halted
  simp only [clock, hp, commit, afterFlush]
  cases o.redirect <;>
  · simp only [forwarded, IdEx.bubble_valid, Bool.and_false, terminate, State.empty, PipeReg.both_cur, hv,
      Bool.not_true, Bool.false_eq_true, if_false, hiAfter, loAfter, Option.isSome, Option.getD, if_true]
    simp only [← h.ifid, ← h.idex, ← hh]

/-- A memory stage that raises ends the run of a slot alone. -/
theorem step_alone_memory_error {s : State} {m : ExMem} (h : s.Alone .bubble .bubble m .bubble)
    {e : Fatal} (he : memoryStage s.cfg m s.mem s.memAccesses (predOf s s.pq) = .error e) :
    step s = .next (s.fail e) := by
  have hst : stallOf s = false := stallOf_of_invalid (by rw [h.ifid]; rfl)
  rw [step_running h.running]
  have hp : phases s (fetchWord s) = .error e := by
    simp [phases, hst, h.ifid, h.idex, h.exmem, h.memwb, fetchStage, fetchSuppressed, h.halted, he, bind,
      Except.bind]
  simp only [clock, hp]

/-- The write-back cycle of a slot alone: the register written, the instruction counted, the run `DONE`. -/
theorem step_alone_writeback {s : State} {w : MemWb} (h : s.Alone .bubble .bubble .bubble w) :
    step s = .next { s with
      memwb := .both .bubble
      regs := if w.valid && w.ctrl.regWrite then regWrite s.regs w.writeReg (memwbValue w) else s.regs
      nR := (retire w ⟨s.nR, s.nI, s.nJ⟩).nR
      nI := (retire w ⟨s.nR, s.nI, s.nJ⟩).nI
      nJ := (retire w ⟨s.nR, s.nI, s.nJ⟩).nJ
      status := .done
      cycles := s.cycles + 1 } := by
  have hst : stallOf s = false := stallOf_of_invalid (by rw [h.ifid]; rfl)
  rw [step_running h.running]
  have hp : phases s (fetchWord s) = .ok
      { stall := false
        regs := if w.valid && w.ctrl.regWrite then regWrite s.regs w.writeReg (memwbValue w) else s.regs
        fetch := ⟨.bubble, s.pc, s.pq, true⟩
        decoded := .bubble
        executed := .bubble
        hilo := none
        memory := ⟨.bubble, s.mem, s.memAccesses, predOf s s.pq, none⟩
        histogram := retire w ⟨s.nR, s.nI, s.nJ⟩ } := by
    rw [phases_ok]
    simp [hst, h.ifid, h.idex, h.exmem, h.memwb, fetchStage, fetchSuppressed, h.halted, prePass_eq]
  have hh := h.halted
  simp only [clock, hp, commit, afterFlush, forwarded, IdEx.bubble_valid, Bool.and_false, terminate,
    State.empty, PipeReg.both_cur, Bool.false_eq_true, if_false, hiAfter, loAfter, IfId.bubble_valid,
    ExMem.bubble_valid, MemWb.bubble_valid, Bool.not_false, Bool.and_self, if_true, predOf]
  simp only [← h.ifid, ← h.idex, ← h.exmem, ← hh]

/-- The cycle in which a Ready state takes a word in. -/
theorem clock_of_ready {s : State} (h : s.Ready) (w : Word) :
    clock s w = s.entered w
      (if isBranchWord w && predict s.cfg.predMode s.h1 s.h2 then
        branchTarget (s.pc + 4#32) (sext32 (immOf w)) else s.pc + 4#32)
      (if isBranchWord w then [predict s.cfg.predMode s.h1 s.h2] else []) := by
  obtain ⟨hrun, hem, hpq, hf⟩ := h
  simp only [State.empty, Bool.and_eq_true, Bool.not_eq_true'] at hem
  obtain ⟨⟨⟨h1, h2⟩, h3⟩, h4⟩ := hem
  have hst : stallOf s = false := stallOf_of_invalid h1
  simp only [fetchReads, Bool.and_eq_true, Bool.not_eq_true'] at hf
  obtain ⟨⟨⟨hf1, -⟩, hf3⟩, hf4⟩ := hf
  have hh : s.haltSeen = false := by
    simp only [fetchSuppressed, Bool.or_eq_false_iff] at hf1
    exact hf1.2
  have hp : phases s w = .ok
      { stall := false
        regs := s.regs
        fetch := ⟨⟨true, w, s.pc + 4#32⟩,
          if isBranchWord w && predict s.cfg.predMode s.h1 s.h2 then
            branchTarget (s.pc + 4#32) (sext32 (immOf w)) else s.pc + 4#32,
          if isBranchWord w then [predict s.cfg.predMode s.h1 s.h2] else [], false⟩
        decoded := .bubble
        executed := .bubble
        hilo := none
        memory := ⟨.bubble, s.mem, s.memAccesses,
          predOf s (if isBranchWord w then [predict s.cfg.predMode s.h1 s.h2] else []), none⟩
        histogram := ⟨s.nR, s.nI, s.nJ⟩ } := by
    rw [phases_ok]
    refine ⟨hst.symm, by simp [prePass_eq, h4], ?_, decodeStage_bubble _ _ _ h1,
      executeStage_bubble _ _ h2, memoryStage_bubble _ _ _ h3, (retire_bubble _ h4).symm⟩
    by_cases hb : isBranchWord w = true
    · simp [fetchStage, hf1, hst, hf3, hf4, hb, hpq, hh]
    · simp [fetchStage, hf1, hst, hf3, hf4, hb, hpq, hh]
  simp only [clock, hp, commit, afterFlush, forwarded, IdEx.bubble_valid, Bool.and_false, hiAfter, loAfter,
    terminate, Bool.false_and, Bool.false_eq_true, if_false, predOf, State.entered, hh]

/-- A meaning from a Ready state. -/
theorem exec_of_ready {s : State} (h : s.Ready) (i : Instr) :
    exec i s = .next (s.entered (wordAtPc i s)
      (if isBranchWord (wordAtPc i s) && predict s.cfg.predMode s.h1 s.h2 then
        branchTarget (s.pc + 4#32) (sext32 (immOf (wordAtPc i s))) else s.pc + 4#32)
      (if isBranchWord (wordAtPc i s) then [predict s.cfg.predMode s.h1 s.h2] else [])) := by
  rw [exec_running i h.1, clock_of_ready h]

/-- The word by which an instruction stands at the pc decodes to it, given that its encoding does. -/
theorem decode_wordAtPc (i : Instr) (s : State) (h : decode (encode i) = .instr i) :
    decode (wordAtPc i s) = .instr i := by
  unfold wordAtPc
  split
  · assumption
  · exact h

/-- Running four steps, one at a time. -/
theorem drainsTo_of_steps {t a b c d : State} (h1 : step t.fetchHeld = .next a) (h2 : step a = .next b)
    (h3 : step b = .next c) (h4 : step c = .next d) : t.DrainsTo d := by
  simp only [State.DrainsTo, Host.Core.run, Sys2Proof.core, h1, h2, h3, h4]

/-- Where a word taken in by a Ready state ends, drained: `out` is what the ALU answers for it, `o` what the
memory stage does. -/
theorem entered_drainsTo {s : State} {w next : Word} {pq : List Bool} (hr : s.status = .running)
    {out : AluOut} {o : MemOut}
    (hc : (decodedSlot s.regs ⟨true, w, s.pc + 4#32⟩).aluctl ≠ .invalid)
    (ho : alu s.cfg.sltMode (decodedSlot s.regs ⟨true, w, s.pc + 4#32⟩).aluctl
        (regRead s.regs (rsOf w))
        (aluOperandB (controlOf (opcodeOf w) (functOf w)).aluSrc (sext32 (immOf w)) (regRead s.regs (rtOf w)))
        (shamtOf w) s.hi s.lo = some out)
    (hm : memoryStage s.cfg (executedSlot s.cfg (decodedSlot s.regs ⟨true, w, s.pc + 4#32⟩) out) s.mem
      s.memAccesses (predOf s pq) = .ok o) (hv : o.memwb.valid = true) :
    (s.entered w next pq).DrainsTo { s.drained with
      regs := if o.memwb.ctrl.regWrite then regWrite s.regs o.memwb.writeReg (memwbValue o.memwb) else s.regs
      hi := hiAfter s.hi out.hilo
      lo := loAfter s.lo out.hilo
      pc := o.redirect.getD next
      mem := o.mem
      memAccesses := o.memAccesses
      h1 := o.pred.h1
      h2 := o.pred.h2
      hits := o.pred.hits
      misses := o.pred.misses
      pq := if o.redirect.isSome then [] else o.pred.pq
      nR := (retire o.memwb ⟨s.nR, s.nI, s.nJ⟩).nR
      nI := (retire o.memwb ⟨s.nR, s.nI, s.nJ⟩).nI
      nJ := (retire o.memwb ⟨s.nR, s.nI, s.nJ⟩).nJ } := by
  have a1 : (s.entered w next pq).fetchHeld.Alone ⟨true, w, s.pc + 4#32⟩ .bubble .bubble .bubble :=
    ⟨hr, rfl, rfl, rfl, rfl, rfl⟩
  have e1 := step_alone_decode a1 rfl hc
  refine drainsTo_of_steps e1
    (step_alone_execute (e := decodedSlot s.regs ⟨true, w, s.pc + 4#32⟩) (out := out)
      ⟨by exact hr, by rfl, by rfl, by rfl, by rfl, by rfl⟩ rfl (by exact ho))
    (step_alone_memory (m := executedSlot s.cfg (decodedSlot s.regs ⟨true, w, s.pc + 4#32⟩) out) (o := o)
      ⟨by exact hr, by rfl, by rfl, by rfl, by rfl, by rfl⟩ (by exact hm) hv) ?_
  rw [step_alone_writeback (w := o.memwb) ⟨by exact hr, by rfl, by rfl, by rfl, by rfl, by rfl⟩]
  simp only [hv, Bool.true_and]
  rfl

end Sys2Proof.Machine
end

