-- ==== Sys2Proof/Laws/PerInstr.lean ====
section
/-! SUPPORT. Per instruction: the encoding matches the instruction's row of `spec/opcode_table.json`. -/

namespace Sys2Proof

/-- The function-code mask of an R-format row keeps bits 31..26 and 5..0. -/
theorem rWord_and_mask (f : BitVec 6) (rs rt rd : RegIdx) (sh : BitVec 5) :
    rWord f rs rt rd sh &&& 0xFC00003F#32 = f.setWidth 32 := by
  have hm : ∀ k, k < 32 → (0xFC00003F#32).getLsbD k = decide (k < 6 ∨ 26 ≤ k) := by decide
  apply BitVec.eq_of_getLsbD_eq
  intro k hk
  have hz : 6 ≤ k → f.getLsbD k = false := BitVec.getLsbD_of_ge f k
  rw [BitVec.getLsbD_and, rWord_getLsbD, hm k hk, BitVec.getLsbD_setWidth]
  grind

/-- The opcode mask keeps bits 31..26. -/
theorem and_opcodeMask (op : BitVec 6) (w : Word) (h : opcodeOf w = op) :
    w &&& 0xFC000000#32 = op.setWidth 32 <<< 26 := by
  subst h
  have hm : ∀ k, k < 32 → (0xFC000000#32).getLsbD k = decide (26 ≤ k) := by decide
  apply BitVec.eq_of_getLsbD_eq
  intro k hk
  rw [BitVec.getLsbD_and, hm k hk, BitVec.getLsbD_shiftLeft, BitVec.getLsbD_setWidth, opcodeOf,
    BitVec.getLsbD_extractLsb']
  grind

namespace Laws.EncodesRow

/-- The word of `i` has the fixed bits of `i`'s row. -/
def Statement (i : Instr) : Prop :=
  match i with
  | .add _ _ _ => encode i &&& 0xFC00003F#32 = 0x00000020#32
  | .addu _ _ _ => encode i &&& 0xFC00003F#32 = 0x00000021#32
  | .sub _ _ _ => encode i &&& 0xFC00003F#32 = 0x00000022#32
  | .subu _ _ _ => encode i &&& 0xFC00003F#32 = 0x00000023#32
  | .and _ _ _ => encode i &&& 0xFC00003F#32 = 0x00000024#32
  | .or _ _ _ => encode i &&& 0xFC00003F#32 = 0x00000025#32
  | .nor _ _ _ => encode i &&& 0xFC00003F#32 = 0x00000027#32
  | .slt _ _ _ => encode i &&& 0xFC00003F#32 = 0x0000002A#32
  | .sltu _ _ _ => encode i &&& 0xFC00003F#32 = 0x0000002B#32
  | .sll _ _ _ => encode i &&& 0xFC00003F#32 = 0x00000000#32
  | .srl _ _ _ => encode i &&& 0xFC00003F#32 = 0x00000002#32
  | .mult _ _ => encode i &&& 0xFC00003F#32 = 0x00000018#32
  | .mfhi _ => encode i &&& 0xFC00003F#32 = 0x00000010#32
  | .mflo _ => encode i &&& 0xFC00003F#32 = 0x00000012#32
  | .jr _ => encode i &&& 0xFC00003F#32 = 0x00000008#32
  | .addi _ _ _ => encode i &&& 0xFC000000#32 = 0x20000000#32
  | .addiu _ _ _ => encode i &&& 0xFC000000#32 = 0x24000000#32
  | .lw _ _ _ => encode i &&& 0xFC000000#32 = 0x8C000000#32
  | .sw _ _ _ => encode i &&& 0xFC000000#32 = 0xAC000000#32
  | .beq _ _ _ => encode i &&& 0xFC000000#32 = 0x10000000#32
  | .bne _ _ _ => encode i &&& 0xFC000000#32 = 0x14000000#32
  | .j _ => encode i &&& 0xFC000000#32 = 0x08000000#32
  | .jal _ => encode i &&& 0xFC000000#32 = 0x0C000000#32

theorem add (rd rs rt : RegIdx) : Statement (.add rd rs rt) := rWord_and_mask _ _ _ _ _

theorem addu (rd rs rt : RegIdx) : Statement (.addu rd rs rt) := rWord_and_mask _ _ _ _ _

theorem sub (rd rs rt : RegIdx) : Statement (.sub rd rs rt) := rWord_and_mask _ _ _ _ _

theorem subu (rd rs rt : RegIdx) : Statement (.subu rd rs rt) := rWord_and_mask _ _ _ _ _

theorem and (rd rs rt : RegIdx) : Statement (.and rd rs rt) := rWord_and_mask _ _ _ _ _

theorem or (rd rs rt : RegIdx) : Statement (.or rd rs rt) := rWord_and_mask _ _ _ _ _

theorem nor (rd rs rt : RegIdx) : Statement (.nor rd rs rt) := rWord_and_mask _ _ _ _ _

theorem slt (rd rs rt : RegIdx) : Statement (.slt rd rs rt) := rWord_and_mask _ _ _ _ _

theorem sltu (rd rs rt : RegIdx) : Statement (.sltu rd rs rt) := rWord_and_mask _ _ _ _ _

theorem sll (rd rt : RegIdx) (shamt : BitVec 5) : Statement (.sll rd rt shamt) := rWord_and_mask _ _ _ _ _

theorem srl (rd rt : RegIdx) (shamt : BitVec 5) : Statement (.srl rd rt shamt) := rWord_and_mask _ _ _ _ _

theorem mult (rs rt : RegIdx) : Statement (.mult rs rt) := rWord_and_mask _ _ _ _ _

theorem mfhi (rd : RegIdx) : Statement (.mfhi rd) := rWord_and_mask _ _ _ _ _

theorem mflo (rd : RegIdx) : Statement (.mflo rd) := rWord_and_mask _ _ _ _ _

theorem jr (rs : RegIdx) : Statement (.jr rs) := rWord_and_mask _ _ _ _ _

theorem addi (rt rs : RegIdx) (imm : BitVec 16) : Statement (.addi rt rs imm) :=
  and_opcodeMask 0x08#6 _ (opcodeOf_iWord _ _ _ _)

theorem addiu (rt rs : RegIdx) (imm : BitVec 16) : Statement (.addiu rt rs imm) :=
  and_opcodeMask 0x09#6 _ (opcodeOf_iWord _ _ _ _)

theorem lw (rt rs : RegIdx) (imm : BitVec 16) : Statement (.lw rt rs imm) :=
  and_opcodeMask 0x23#6 _ (opcodeOf_iWord _ _ _ _)

theorem sw (rt rs : RegIdx) (imm : BitVec 16) : Statement (.sw rt rs imm) :=
  and_opcodeMask 0x2b#6 _ (opcodeOf_iWord _ _ _ _)

theorem beq (rs rt : RegIdx) (imm : BitVec 16) : Statement (.beq rs rt imm) :=
  and_opcodeMask 0x04#6 _ (opcodeOf_iWord _ _ _ _)

theorem bne (rs rt : RegIdx) (imm : BitVec 16) : Statement (.bne rs rt imm) :=
  and_opcodeMask 0x05#6 _ (opcodeOf_iWord _ _ _ _)

theorem j (target : BitVec 26) : Statement (.j target) :=
  and_opcodeMask 0x02#6 _ (opcodeOf_jWord _ _)

theorem jal (target : BitVec 26) : Statement (.jal target) :=
  and_opcodeMask 0x03#6 _ (opcodeOf_jWord _ _)

end Laws.EncodesRow

end Sys2Proof
end

