-- ==== Sys2Proof/Tests/Slice0.lean ====
section
/-! SUPPORT. The model's own tests. Words and expected values are the spec's: the example line of the rule a test
names. A `witness_…` theorem shows a concrete state that meets the hypotheses of the statement it names. -/

namespace Sys2Proof.Tests

open Sys2Proof Sys2Proof.Machine

/-! ### Well-formedness: each check refuses an ill-formed term (R455, R61) -/

theorem test_wellFormed_default : Config.default.wellFormed = true := by decide
theorem test_wellFormed_memSize_zero :
    { Config.default with memSize := 0, spInit := 0#32 }.wellFormed = false := by decide
theorem test_wellFormed_memSize_multiple :
    { Config.default with memSize := 6, spInit := 0#32 }.wellFormed = false := by decide
theorem test_wellFormed_memSize_bound : { Config.default with memSize := 2 ^ 32 + 4 }.wellFormed = false := by
  decide
theorem test_wellFormed_spInit : { Config.default with spInit := 0x01000001#32 }.wellFormed = false := by decide
theorem test_wellFormed_sentinel : { Config.default with sentinel := 0xFFFFFFFC#32 }.wellFormed = false := by
  decide
theorem test_imageFits_multiple : imageFits Config.default [1#8, 2#8, 3#8] = false := by decide
theorem test_imageFits_length :
    imageFits { Config.default with memSize := 4 } [1#8, 2#8, 3#8, 4#8, 5#8, 6#8, 7#8, 8#8] = false := by decide
/-- Operand types are exactly as wide as their fields, so no term of `Instr` is ill-formed (R94, R95). -/
theorem test_wellFormed_instr : (Instr.sll 31#5 31#5 31#5).wellFormed = true := by decide

/-! ### Decoding: one word per instruction, written bit by bit from its format and its row -/

/-- R171: `0x00221820`. -/
theorem test_decode_add : decodeTableWord 32 0b00000000001000100001100000100000 = some (.add 3 1 2) := by decide
/-- R172: `0x00853021`. -/
theorem test_decode_addu : decodeTableWord 32 0b00000000100001010011000000100001 = some (.addu 6 4 5) := by decide
/-- R173: `0x00221822`. -/
theorem test_decode_sub : decodeTableWord 32 0b00000000001000100001100000100010 = some (.sub 3 1 2) := by decide
/-- R174: `0x00221823`. -/
theorem test_decode_subu : decodeTableWord 32 0b00000000001000100001100000100011 = some (.subu 3 1 2) := by decide
/-- R175: `0x00221824`. -/
theorem test_decode_and : decodeTableWord 32 0b00000000001000100001100000100100 = some (.and 3 1 2) := by decide
/-- R176: `0x00221825`. -/
theorem test_decode_or : decodeTableWord 32 0b00000000001000100001100000100101 = some (.or 3 1 2) := by decide
/-- R177: `0x00221827`. -/
theorem test_decode_nor : decodeTableWord 32 0b00000000001000100001100000100111 = some (.nor 3 1 2) := by decide
/-- R178: `0x0022182A`. -/
theorem test_decode_slt : decodeTableWord 32 0b00000000001000100001100000101010 = some (.slt 3 1 2) := by decide
/-- R179: `0x0022182B`. -/
theorem test_decode_sltu : decodeTableWord 32 0b00000000001000100001100000101011 = some (.sltu 3 1 2) := by decide
/-- R180: `0x00021900`. -/
theorem test_decode_sll : decodeTableWord 32 0b00000000000000100001100100000000 = some (.sll 3 2 4) := by decide
/-- R181: `0x00021902`. -/
theorem test_decode_srl : decodeTableWord 32 0b00000000000000100001100100000010 = some (.srl 3 2 4) := by decide
/-- R200: `0x01090018`. -/
theorem test_decode_mult : decodeTableWord 32 0b00000001000010010000000000011000 = some (.mult 8 9) := by decide
/-- R202: `0x00005810`. -/
theorem test_decode_mfhi : decodeTableWord 32 0b00000000000000000101100000010000 = some (.mfhi 11) := by decide
/-- R203: `0x00005012`. -/
theorem test_decode_mflo : decodeTableWord 32 0b00000000000000000101000000010010 = some (.mflo 10) := by decide
/-- R240: `0x03E00008`. -/
theorem test_decode_jr : decodeTableWord 32 0b00000011111000000000000000001000 = some (.jr 31) := by decide
/-- R182: `0x20010005`. -/
theorem test_decode_addi : decodeTableWord 32 0b00100000000000010000000000000101 = some (.addi 1 0 5) := by decide
/-- R183: `0x27BDFFF8`. -/
theorem test_decode_addiu : decodeTableWord 32 0b00100111101111011111111111111000 = some (.addiu 29 29 0xFFF8) := by decide
/-- R210: `0x8FAC0004`. -/
theorem test_decode_lw : decodeTableWord 32 0b10001111101011000000000000000100 = some (.lw 12 29 4) := by decide
/-- R212: `0xAFAA0004`. -/
theorem test_decode_sw : decodeTableWord 32 0b10101111101010100000000000000100 = some (.sw 10 29 4) := by decide
/-- R228: `0x10220002`. -/
theorem test_decode_beq : decodeTableWord 32 0b00010000001000100000000000000010 = some (.beq 1 2 2) := by decide
/-- R229: `0x1420FFFD`. -/
theorem test_decode_bne : decodeTableWord 32 0b00010100001000001111111111111101 = some (.bne 1 0 0xFFFD) := by decide
/-- R230: `0x08000010`. -/
theorem test_decode_j : decodeTableWord 32 0b00001000000000000000000000010000 = some (.j 0x10) := by decide
/-- R231: `0x0C000006`. -/
theorem test_decode_jal : decodeTableWord 32 0b00001100000000000000000000000110 = some (.jal 6) := by decide
theorem test_decode_unknown_funct : decodeTableWord 32 0x3F = none := by decide
theorem test_decode_unknown_opcode : decodeTableWord 32 0xFC000000 = none := by decide
theorem test_decode_not_a_word : decodeBytes [0#8, 0#8, 0#8] = .notAWord 3 := by decide

/-! ### One step of a small state -/

/-- Registers 1 and 2 hold `a` and `b`, the others 0. -/
def regsOf (a b : Word) : RegFile := regWrite (regWrite (Vector.replicate 32 0#32) 1 a) 2 b

/-- A slot for `i`, fetched at address 0. -/
def fetched (i : Instr) : IfId := ⟨true, encode i, 4#32⟩

/-- `i` decoded with `a` and `b` in registers 1 and 2. -/
def decodedAs (i : Instr) (a b : Word) : IdEx := decodedSlot (regsOf a b) (fetched i)

/-- `i` executed with `a` and `b` in registers 1 and 2. -/
def executedAs (i : Instr) (a b : Word) : ExMem :=
  let e := decodedAs i a b
  executedSlot Config.default e
    ((alu .trueCompare e.aluctl e.rsVal (aluOperandB e.ctrl.aluSrc e.imm e.rtVal) e.shamt 0 0).getD (plainOut 0))

/-- A machine at reset with these slots in flight. -/
def flight (c : Config) (f : IfId) (e : IdEx) (m : ExMem) (w : MemWb) (pq : List Bool) : State :=
  { State.resetWith c [] with
    ifid := .both f
    idex := .both e
    exmem := .both m
    memwb := .both w
    pq := pq }

/-- One cycle on. -/
def after (s : State) : State := clock s (fetchWord s)

/-- The ALU result one cycle after `i` stands in execute with `a` and `b` in registers 1 and 2. -/
def resultOf (i : Instr) (a b : Word) : Word :=
  (after (flight Config.default .bubble (decodedAs i a b) .bubble .bubble [])).exmem.cur.aluResult

theorem test_add : resultOf (.add 3 1 2) 5 7 = 12 := by decide
theorem test_add_wraps : resultOf (.add 3 1 2) 0xFFFFFFFF 1 = 0 := by decide
theorem test_addu : resultOf (.addu 3 1 2) 0xFFFFFFFF 2 = 1 := by decide
theorem test_sub : resultOf (.sub 3 1 2) 3 10 = 0xFFFFFFF9 := by decide
theorem test_subu : resultOf (.subu 3 1 2) 10 3 = 7 := by decide
theorem test_and : resultOf (.and 3 1 2) 0xF0F0F0F0 0x0FF00FF0 = 0x00F000F0 := by decide
theorem test_or : resultOf (.or 3 1 2) 0xF0F0F0F0 0x0FF00FF0 = 0xFFF0FFF0 := by decide
theorem test_nor : resultOf (.nor 3 1 2) 0xF0F0F0F0 0x0FF00FF0 = 0x000F000F := by decide
theorem test_slt : resultOf (.slt 3 1 2) 0xFFFFFFFF 1 = 1 := by decide
/-- R145: the two modes differ on this pair. -/
theorem test_slt_modes :
    sltResult .trueCompare 0x80000000 1 = 1 ∧ sltResult .signOfDiff 0x80000000 1 = 0 := by decide
theorem test_sltu : resultOf (.sltu 3 1 2) 0xFFFFFFFF 1 = 0 := by decide
theorem test_sll : resultOf (.sll 3 2 4) 0 3 = 0x30 := by decide
theorem test_srl : resultOf (.srl 3 2 4) 0 0x80000000 = 0x08000000 := by decide
theorem test_addi : resultOf (.addi 1 0 5) 0 0 = 5 := by decide
theorem test_addi_sign_extends : resultOf (.addi 3 1 0x8000) 0 0 = 0xFFFF8000 := by decide
theorem test_addiu : resultOf (.addiu 3 1 0xFFF8) 0x01000000 0 = 0x00FFFFF8 := by decide
/-- R200: -3 times 7. -/
theorem test_mult :
    (after (flight Config.default .bubble (decodedAs (.mult 1 2) 0xFFFFFFFD 7) .bubble .bubble [])).lo
      = 0xFFFFFFEB := by decide
/-- R200: the square of -2^31. -/
theorem test_mult_high :
    (after (flight Config.default .bubble (decodedAs (.mult 1 1) 0x80000000 0) .bubble .bubble [])).hi
      = 0x40000000 := by decide
theorem test_mfhi :
    (after { flight Config.default .bubble (decodedAs (.mfhi 11) 0 0) .bubble .bubble [] with
      hi := 0xFFFFFFFF }).exmem.cur.aluResult = 0xFFFFFFFF := by decide
theorem test_mflo :
    (after { flight Config.default .bubble (decodedAs (.mflo 10) 0 0) .bubble .bubble [] with
      lo := 0xFFFFFFEB }).exmem.cur.aluResult = 0xFFFFFFEB := by decide
/-- R212, R210: the stored bytes, big-endian, and the word read back. -/
theorem test_sw :
    (after (flight Config.default .bubble .bubble (executedAs (.sw 2 1 4) 0x00FFFFF8 0xFFFFFFEB) .bubble [])).mem
      = [(0xFFFFFC, 0xFF), (0xFFFFFD, 0xFF), (0xFFFFFE, 0xFF), (0xFFFFFF, 0xEB)] := by decide
theorem test_lw :
    (after { flight Config.default .bubble .bubble (executedAs (.lw 3 1 4) 0x00FFFFF8 0) .bubble [] with
      mem := [(0xFFFFFC, 0xFF), (0xFFFFFD, 0xFF), (0xFFFFFE, 0xFF), (0xFFFFFF, 0xEB)] }).memwb.cur.memData
      = 0xFFFFFFEB := by decide
/-- R64: `lw $1, -4($0)` is out of range (R214). -/
theorem test_lw_out_of_range :
    (after (flight Config.default .bubble .bubble (executedAs (.lw 1 0 0xFFFC) 0 0) .bubble [])).status
      = .failed ⟨.memOutOfRange, 1, 0xFFFFFFFC⟩ := by decide
theorem test_sw_misaligned :
    (after (flight Config.default .bubble .bubble (executedAs (.sw 2 1 2) 0 0) .bubble [])).status
      = .failed ⟨.misalignedData, 1, 2⟩ := by decide
/-- R228, R341: equal operands, predicted not taken: a miss to `pc4 + 8`. -/
theorem test_beq :
    (after (flight Config.default .bubble .bubble (executedAs (.beq 1 2 2) 9 9) .bubble [false])).pc = 12 := by
  decide
/-- R229, R340: unequal operands, predicted taken: a hit. -/
theorem test_bne :
    (after (flight Config.default .bubble .bubble (executedAs (.bne 1 0 0xFFFD) 2 0) .bubble [true])).hits = 1 := by
  decide
theorem test_j :
    (after (flight Config.default .bubble .bubble (executedAs (.j 0x10) 0 0) .bubble [])).pc = 0x40 := by decide
/-- R231, R232: the link value of a `jal` at address 0 is 8. -/
theorem test_jal :
    (after (flight Config.default .bubble .bubble (executedAs (.jal 6) 0 0) .bubble [])).memwb.cur.link = 8 := by
  decide
theorem test_jr :
    (after (flight Config.default .bubble .bubble (executedAs (.jr 1) 0x10 0) .bubble [])).pc = 0x10 := by decide

/-- R313: an add right behind the add it depends on reads the sum, forwarded. -/
theorem test_forward_distance_one :
    (after (flight Config.default (fetched (.add 4 3 1)) (decodedAs (.add 3 1 2) 2 3) .bubble .bubble
      [])).idex.cur.rsVal = 5 := by decide

/-- The default configuration under the stall policy. -/
def stallConfig : Config := { Config.default with policy := .stall }

/-- R305: the same pair stalls under `STALL`; behind a load it does not (R307). -/
theorem test_stall :
    stallOf (flight stallConfig (fetched (.add 4 3 1)) (decodedAs (.add 3 1 2) 2 3) .bubble .bubble []) = true
      ∧ stallOf (flight stallConfig (fetched (.add 4 3 1)) (decodedAs (.lw 3 0 0) 2 3) .bubble .bubble [])
        = false := by decide

/-- R93, R402: an unlisted function code is fatal in decode. -/
theorem test_unknown_funct_fatal :
    (after (flight Config.default ⟨true, 0x3F, 4⟩ .bubble .bubble .bubble [])).status
      = .failed ⟨.invalidAluControl, 1, 0x3F⟩ := by decide

/-- R42: the first cycle after reset fetches; every other stage holds a bubble. -/
theorem test_bubbleMask : bubbleMask State.reset = some 0b11110#5 := by decide

/-! ### Witnesses: states that meet the hypotheses of the statements -/

theorem completed_after {s : State} (h : s.status = .running) (hc : (after s).cycles = s.cycles + 1) :
    Completed s (after s) := ⟨step_running h, hc⟩

/-- BundleTable, AluCodeTable, ReadSetTable: a word for each clause. -/
theorem witness_decode_clauses :
    decode 0x00221820#32 = .instr (.add 3 1 2) ∧ decode 0x3F#32 = .unknownFunct (functOf 0x3F#32)
      ∧ decode 0xFC000000#32 = .unknownOpcode (opcodeOf 0xFC000000#32) := by decide

/-- WordMemory. -/
theorem witness_WordMemory : Memory.wf [(0, 1#8), (4, 0xFF#8)] = true := by decide

/-- SltModes: both ends of the range in which the modes agree. -/
theorem witness_SltModes :
    (-2 ^ 31 ≤ (0x80000000#32).toInt - (0#32).toInt ∧ (0x80000000#32).toInt - (0#32).toInt ≤ 2 ^ 31 - 1)
      ∧ (-2 ^ 31 ≤ (0x7FFFFFFF#32).toInt - (0#32).toInt ∧ (0x7FFFFFFF#32).toInt - (0#32).toInt ≤ 2 ^ 31 - 1) := by
  decide

/-- StepRunsDecoded. -/
theorem witness_StepRunsDecoded :
    let s := State.reset.withFetchWord 32 0x00221820
    fetchReads s = true ∧ decode (fetchWord s) = .instr (.add 3 1 2) := by decide

/-- RegisterAluComplete, CompareComplete, ShiftComplete, ImmediateComplete, MultCompletes, MoveFromComplete,
BranchesComplete, JumpsComplete, JumpRegisterCompletes. -/
theorem witness_Ready : State.reset.Ready := by decide

/-- LoadCompletes, StoreCompletes: the lowest and the highest word of the array. -/
theorem witness_LoadCompletes :
    State.reset.Ready
      ∧ (inRange State.reset.cfg (effectiveAddress State.reset 0 0) = true
        ∧ aligned (effectiveAddress State.reset 0 0) = true)
      ∧ (inRange State.reset.cfg (effectiveAddress State.reset 29 0xFFFC) = true
        ∧ aligned (effectiveAddress State.reset 29 0xFFFC) = true) ∧ State.reset.mem.wf = true := by decide

/-- DataAddressFaults: just past the last word, and the last misaligned address in range. -/
theorem witness_DataAddressFaults :
    State.reset.Ready ∧ inRange State.reset.cfg (effectiveAddress State.reset 29 0xFFFD) = false
      ∧ inRange State.reset.cfg (effectiveAddress State.reset 29 0xFFFB) = true
      ∧ aligned (effectiveAddress State.reset 29 0xFFFB) = false := by decide

/-- UnknownOpcodeIsNoOp. -/
theorem witness_UnknownOpcodeIsNoOp :
    let s := State.reset.withFetchWord 32 0xFC000000
    s.Ready ∧ decode (fetchWord s) = .unknownOpcode (opcodeOf (fetchWord s)) := by decide

/-- A store in memory, an add in execute, a dependent add in decode, an add in write-back. -/
def busy : State :=
  flight Config.default (fetched (.add 4 3 1)) (decodedAs (.add 3 1 2) 2 3) (executedAs (.sw 2 1 4) 8 9)
    (accessedSlot (executedAs (.add 5 1 2) 1 1) 0) []

/-- WriteBackWritesRegister, RetirementCounts, MemoryStage, HiLoWrittenByMult, Termination, HitsPlusMisses,
JumpsBypassPredictor, ExecuteStage, DecodeStage, QueuePushPop, ForwardMux, OperandsAreCurrent, FetchStage (a
fetch): a cycle that completes with every stage at work. -/
theorem witness_busy :
    Completed busy (after busy) ∧ redirectOf busy = none ∧ busy.exmem.cur.valid = true
      ∧ busy.idex.cur.valid = true ∧ decodes busy = true ∧ resolves busy = false
      ∧ busy.cfg.policy = .forward ∧ (after busy).idex.cur.valid = true ∧ busy.BundlesFromDecoder
      ∧ loadUse busy.idex.cur busy.ifid.cur = false
      ∧ usesRs (after busy).idex.cur.opcode (after busy).idex.cur.funct = true
      ∧ usesRt (after busy).idex.cur.opcode (after busy).idex.cur.funct = true
      ∧ busy.pc ≠ busy.cfg.sentinel ∧ busy.haltSeen = false ∧ stallOf busy = false :=
  ⟨completed_after rfl (by decide), by decide, by decide, by decide, by decide, by decide, by decide, by decide,
    ⟨fun _ => by decide, fun _ => by decide, fun _ => ⟨0x20, by decide⟩⟩, by decide, by decide, by decide,
    by decide, by decide, by decide⟩

/-- The same statements' clauses for bubbles: the first cycle after reset. -/
theorem witness_idle :
    Completed State.reset (after State.reset) ∧ redirectOf State.reset = none
      ∧ State.reset.exmem.cur.valid = false ∧ State.reset.idex.cur.valid = false
      ∧ decodes State.reset = false :=
  ⟨completed_after rfl (by decide), by decide, by decide, by decide, by decide⟩

/-- HiLoWrittenByMult: a `mult` in execute that nothing squashes. -/
theorem witness_HiLoWrittenByMult :
    let s := flight Config.default .bubble (decodedAs (.mult 1 2) 0xFFFFFFFD 7) .bubble .bubble []
    Completed s (after s) ∧ s.idex.cur.valid = true ∧ s.idex.cur.aluctl = .mult ∧ redirectOf s = none :=
  ⟨completed_after rfl (by decide), by decide, by decide, by decide⟩

/-- MemoryChangesOnlyByStore: the highest byte the store changes. -/
theorem witness_MemoryChangesOnlyByStore :
    step busy = .next (after busy) ∧ byteRead (after busy).mem 15 ≠ byteRead busy.mem 15 :=
  ⟨step_running rfl, by decide⟩

/-- A dependent add in decode right behind a load in execute. -/
def behindLoad (c : Config) : State :=
  flight c (fetched (.add 4 3 3)) (decodedAs (.lw 3 1 4) 8 0) .bubble .bubble []

/-- LoadUseReadsStale. -/
theorem witness_LoadUseReadsStale :
    Completed (behindLoad Config.default) (after (behindLoad Config.default))
      ∧ (behindLoad Config.default).BundlesFromDecoder ∧ redirectOf (behindLoad Config.default) = none
      ∧ decodes (behindLoad Config.default) = true
      ∧ loadUse (behindLoad Config.default).idex.cur (behindLoad Config.default).ifid.cur = true
      ∧ idexProduces (behindLoad Config.default).idex.cur 3 = true
      ∧ usesRs 0x00 0x20 = true ∧ usesRt 0x00 0x20 = true :=
  ⟨completed_after rfl (by decide), ⟨fun _ => by decide, fun h => absurd h (by decide), fun h => absurd h (by decide)⟩,
    by decide, by decide, by decide, by decide, by decide, by decide⟩

/-- FetchStage: at SENTINEL. -/
theorem witness_FetchStage_sentinel :
    let s := { State.reset with pc := 0xFFFFFFFF }
    Completed s (after s) ∧ redirectOf s = none ∧ s.pc = s.cfg.sentinel :=
  ⟨completed_after rfl (by decide), by decide, by decide⟩

/-- FlushOnRedirect: a `j` in memory. -/
theorem witness_FlushOnRedirect :
    let s := flight Config.default .bubble .bubble (executedAs (.j 0x10) 0 0) .bubble []
    Completed s (after s) ∧ redirectOf s = some 0x40 :=
  ⟨completed_after rfl (by decide), by decide⟩

/-- A taken `beq` in memory, predicted `p`. -/
def branching (p : Bool) : State :=
  flight Config.default .bubble .bubble (executedAs (.beq 1 2 2) 9 9) .bubble [p]

/-- BranchResolution: a hit and a miss. -/
theorem witness_BranchResolution :
    (Completed (branching true) (after (branching true)) ∧ (branching true).QueueMatches
        ∧ resolves (branching true) = true ∧ (branching true).exmem.cur.ctrl.jump = false
        ∧ (branching true).exmem.cur.zero = true)
      ∧ Completed (branching false) (after (branching false)) ∧ (branching false).QueueMatches :=
  ⟨⟨completed_after rfl (by decide), by decide, by decide, by decide, by decide⟩,
    completed_after rfl (by decide), by decide⟩

/-- A dependent add in decode, under `STALL`, the producers in execute and memory as given. -/
def stalling (e : IdEx) (m : ExMem) : State := flight stallConfig (fetched (.add 4 3 1)) e m .bubble []

/-- StallCycles, first clause, and StallHolds, StallCondition, FetchStage (a stall): an add at distance 1. -/
theorem witness_StallCycles_adjacent :
    let s := stalling (decodedAs (.add 3 1 2) 2 3) .bubble
    Completed s (after s) ∧ Completed (after s) (after (after s)) ∧ s.cfg.policy = .stall
      ∧ s.ifid.cur.valid = true ∧ fetchSuppressed s = false ∧ redirectOf s = none ∧ redirectOf (after s) = none
      ∧ (∃ r ∈ readsOf s.ifid.cur.instr, idexProduces s.idex.cur r = true) ∧ s.idex.cur.ctrl.memRead = false
      ∧ stallOf s = true :=
  ⟨completed_after rfl (by decide), completed_after rfl (by decide), by decide, by decide, by decide, by decide,
    by decide, ⟨3, by decide, by decide⟩, by decide, by decide⟩

/-- StallCycles, second clause: a load at distance 2. -/
theorem witness_StallCycles_distance_two :
    let s := stalling .bubble (executedAs (.lw 3 1 4) 8 0)
    Completed s (after s) ∧ Completed (after s) (after (after s)) ∧ redirectOf s = none
      ∧ redirectOf (after s) = none ∧ (∀ r ∈ readsOf s.ifid.cur.instr, idexProduces s.idex.cur r = false)
      ∧ (∃ r ∈ readsOf s.ifid.cur.instr, exmemProduces s.exmem.cur r = true) :=
  ⟨completed_after rfl (by decide), completed_after rfl (by decide), by decide, by decide, by decide,
    ⟨3, by decide, by decide⟩⟩

/-- StallCycles, third clause: a load at distance 1. -/
theorem witness_StallCycles_load :
    let s := stalling (decodedAs (.lw 3 1 4) 8 0) .bubble
    Completed s (after s) ∧ Completed (after s) (after (after s)) ∧ redirectOf s = none
      ∧ redirectOf (after s) = none ∧ s.idex.cur.ctrl.memRead = true
      ∧ (∀ r ∈ readsOf s.ifid.cur.instr, exmemProduces s.exmem.cur r = false) :=
  ⟨completed_after rfl (by decide), completed_after rfl (by decide), by decide, by decide, by decide, by decide⟩

/-- FirstFaultReported: a state that faults, the younger fault first, and one that completes. -/
theorem witness_FirstFaultReported :
    let s := flight Config.default ⟨true, 0x3F, 4⟩ .bubble (executedAs (.lw 1 0 0xFFFC) 0 0) .bubble []
    s.status = .running ∧ s.ExecuteCodeValid ∧ s.QueueMatches ∧ firstFault s = some ⟨.invalidAluControl, 0x3F⟩
      ∧ busy.status = .running ∧ busy.ExecuteCodeValid ∧ busy.QueueMatches ∧ firstFault busy = none := by
  decide

/-- FinalStatusStops. -/
theorem witness_FinalStatusStops :
    { State.reset with status := .done }.status = .done
      ∧ { State.reset with status := .failed ⟨.fetchMisaligned, 1, 2⟩ }.status
        = .failed ⟨.fetchMisaligned, 1, 2⟩ := by decide

/-- OnlyJrReachesSentinel: a `jr` to SENTINEL in memory. -/
theorem witness_OnlyJrReachesSentinel :
    let s := flight Config.default .bubble .bubble (executedAs (.jr 1) 0xFFFFFFFF 0) .bubble []
    Completed s (after s) ∧ s.cfg.wellFormed = true ∧ s.SlotsAligned ∧ (after s).pc = s.cfg.sentinel :=
  ⟨completed_after rfl (by decide), by decide, by decide, by decide⟩

/-- ResetValues, ResetMeetsInvariants: an image of one word that fills the array exactly. -/
theorem witness_ResetValues :
    let c := { Config.default with memSize := 4, spInit := 4#32 }
    c.wellFormed = true ∧ imageFits c [0x03#8, 0xE0#8, 0x00#8, 0x08#8] = true
      ∧ boot c [0x03#8, 0xE0#8, 0x00#8, 0x08#8]
        = .next (State.resetWith c (bytesWrite [] 0 [0x03#8, 0xE0#8, 0x00#8, 0x08#8])) :=
  ⟨by decide, by decide, rfl⟩

/-- BootRefuses: each cause, the second part under a configuration the host admits. -/
theorem witness_BootRefuses :
    { Config.default with memSize := 0 }.memSize = 0 ∧ { Config.default with memSize := 6 }.memSize % 4 ≠ 0
      ∧ 2 ^ 32 < { Config.default with memSize := 2 ^ 32 + 4 }.memSize
      ∧ { Config.default with memSize := 4 }.memSize < Config.default.spInit.toNat
      ∧ { Config.default with sentinel := 0xFFFFFFFC#32 }.sentinel.toNat % 4 = 0
      ∧ Config.default.wellFormed = true ∧ [1#8].length % 4 ≠ 0
      ∧ { Config.default with memSize := 4, spInit := 4#32 }.wellFormed = true
      ∧ (List.replicate 8 1#8).length > { Config.default with memSize := 4, spInit := 4#32 }.memSize := by decide

/-- QueueInvariantKept, MemoryCanonicalKept, SlotsWellFormedKept, BundlesAndAddressesKept,
CountersNeverDecrease: a branch in memory. -/
theorem witness_invariants :
    (branching false).QueueInvariant ∧ (branching false).MemoryCanonical ∧ (branching false).SlotsWellFormed
      ∧ (branching false).ExecuteCodeValid ∧ (branching false).BundlesFromDecoder
      ∧ (branching false).SlotsAligned ∧ step (branching false) = .next (after (branching false)) :=
  ⟨by decide, by decide, by decide, by decide,
    ⟨fun h => absurd h (by decide), fun _ => by decide, fun h => absurd h (by decide)⟩, by decide,
    step_running rfl⟩

end Sys2Proof.Tests
end

section
/-! Proofs of the statements of 00_scope.md: what a word can decode to, and register 0. -/

namespace Sys2Proof

open Sys2Proof.Machine

/-- The opcodes of R89. -/
abbrev listedOpcodes : List (BitVec 6) :=
  [0x00#6, 0x02#6, 0x03#6, 0x04#6, 0x05#6, 0x08#6, 0x09#6, 0x23#6, 0x2B#6]

/-- The function codes of R90. -/
abbrev listedFuncts : List (BitVec 6) :=
  [0x00#6, 0x02#6, 0x08#6, 0x10#6, 0x12#6, 0x18#6, 0x20#6, 0x21#6, 0x22#6, 0x23#6, 0x24#6, 0x25#6, 0x27#6,
    0x2A#6, 0x2B#6]

/-- Under opcode 0 the function code alone decides between an instruction and a refusal (R90). -/
theorem decodeSpecial_instr_or_unknownFunct (w : Word) :
    (functOf w ∈ listedFuncts ∧ ∃ i, decodeSpecial w = .instr i)
      ∨ (functOf w ∉ listedFuncts ∧ decodeSpecial w = .unknownFunct (functOf w)) := by
  rcases decodeSpecial_cases w with h | h | h | h | h | h | h | h | h | h | h | h | h | h | h | hUnlisted
  on_goal 16 => exact .inr hUnlisted
  all_goals
    obtain ⟨hFunct, hInstr⟩ := h
    exact .inl ⟨by simp [hFunct], _, hInstr⟩

/-- Every word is an instruction, an unlisted opcode, or opcode 0 with an unlisted function code, and its
two codes tell which (R3, R89, R90). -/
theorem decode_trichotomy (w : Word) :
    (opcodeOf w ∈ listedOpcodes ∧ (opcodeOf w = 0x00#6 → functOf w ∈ listedFuncts)
        ∧ ∃ i, decode w = .instr i)
      ∨ (opcodeOf w ∉ listedOpcodes ∧ decode w = .unknownOpcode (opcodeOf w))
      ∨ (opcodeOf w = 0x00#6 ∧ functOf w ∉ listedFuncts ∧ decode w = .unknownFunct (functOf w)) := by
  rcases decode_cases w with ⟨hOpcode, hSpecial⟩ | h | h | h | h | h | h | h | h | hUnlisted
  on_goal 10 => exact .inr (.inl hUnlisted)
  on_goal 1 =>
    rw [hSpecial]
    rcases decodeSpecial_instr_or_unknownFunct w with ⟨hFunct, hInstr⟩ | hUnlisted
    · exact .inl ⟨by simp [hOpcode], fun _ => hFunct, hInstr⟩
    · exact .inr (.inr ⟨hOpcode, hUnlisted⟩)
  all_goals
    obtain ⟨hOpcode, hInstr⟩ := h
    exact .inl ⟨by simp [hOpcode], by simp [hOpcode], _, hInstr⟩

/-- Settles O4: in each case of `decode_trichotomy` both equivalences have their two sides true or their two
sides false. -/
theorem decodeIsTotal : Obligations.DecodeIsTotal := by
  intro w
  rcases decode_trichotomy w with
    ⟨hOpcode, hFunct, i, hInstr⟩ | ⟨hOpcode, hUnknown⟩ | ⟨hOpcode, hFunct, hUnknown⟩
  · exact ⟨iff_of_false (by simp [hInstr]) (not_not_intro hOpcode),
      iff_of_false (by simp [hInstr]) fun h => h.2 (hFunct h.1), .inl ⟨i, hInstr⟩⟩
  · have hNotZero : opcodeOf w ≠ 0x00#6 := fun h => hOpcode (by simp [h])
    exact ⟨iff_of_true hUnknown hOpcode, iff_of_false (by simp [hUnknown]) fun h => hNotZero h.1,
      .inr (.inl hUnknown)⟩
  · exact ⟨iff_of_false (by simp [hUnknown]) (by simp [hOpcode]), iff_of_true hUnknown ⟨hOpcode, hFunct⟩,
      .inr (.inr hUnknown)⟩

/-- Settles O8: the last two clauses are the two branches of `regRead_regWrite`. -/
theorem registerZeroReadsZero : Obligations.RegisterZeroReadsZero := by
  intro f i j v
  refine ⟨regRead_zero f, regWrite_zero f v, fun hi => ?_, fun hij => ?_⟩
  · rw [regRead_regWrite, if_pos ⟨rfl, hi⟩]
  · rw [regRead_regWrite, if_neg fun h => hij h.1]

end Sys2Proof
end

section
/-! Proofs of the statements of 10_state.md: the counters of R47 over one step, and the final statuses of R45. -/

namespace Sys2Proof.Machine

/-- Retirement counts into one bin at most and takes nothing from any (R282). -/
theorem retire_counts_le (w : MemWb) (h : Histogram) :
    h.nR ≤ (retire w h).nR ∧ h.nI ≤ (retire w h).nI ∧ h.nJ ≤ (retire w h).nJ := by
  unfold retire
  split_ifs <;> simp

/-- Branch resolution counts a hit, a miss or nothing (R338, R340, R341). -/
theorem resolveBranch_counts_le {mode : PredMode} {m : ExMem} {p p' : PredState} {miss : Option Word}
    (h : resolveBranch mode m p = .ok (p', miss)) : p.hits ≤ p'.hits ∧ p.misses ≤ p'.misses := by
  unfold resolveBranch at h
  split at h
  · obtain ⟨_, _, _, _, _, _, ⟨_, hHits, hMisses, _⟩ | ⟨_, hHits, hMisses, _⟩⟩ := validate_ok h <;> omega
  · cases h
    exact ⟨le_rfl, le_rfl⟩

/-- The memory stage takes nothing from the counters it is handed (R279). -/
theorem memoryStage_counts_le {c : Config} {m : ExMem} {mem : Memory} {n : Nat} {pred : PredState}
    {o : MemOut} (h : memoryStage c m mem n pred = .ok o) :
    pred.hits ≤ o.pred.hits ∧ pred.misses ≤ o.pred.misses ∧ n ≤ o.memAccesses := by
  rcases memoryStage_ok h with ⟨_, rfl⟩ | ⟨_, _, _, _, hAccesses, miss, hResolve, _⟩
  · exact ⟨le_rfl, le_rfl, le_rfl⟩
  · obtain ⟨hHits, hMisses⟩ := resolveBranch_counts_le hResolve
    exact ⟨hHits, hMisses, hAccesses ▸ Nat.le_add_right _ _⟩

/-- What a cycle does to the configuration and the counters, whether it commits or a fatal error ends it: the
histogram grows by `retire`, the other counters by the memory stage (R46, R47). -/
theorem clock_counts_le (s : State) (w : Word) :
    (clock s w).cfg = s.cfg ∧ s.cycles ≤ (clock s w).cycles
      ∧ s.nR ≤ (clock s w).nR ∧ s.nI ≤ (clock s w).nI ∧ s.nJ ≤ (clock s w).nJ
      ∧ s.hits ≤ (clock s w).hits ∧ s.misses ≤ (clock s w).misses
      ∧ s.memAccesses ≤ (clock s w).memAccesses := by
  rcases clock_cases s w with ⟨e, _, hFail⟩ | ⟨p, hPhases, hCommit⟩
  · simp [hFail]
  · obtain ⟨_, _, _, _, _, hMemory, hHistogram⟩ := phases_ok.mp hPhases
    obtain ⟨hR, hI, hJ⟩ := hHistogram ▸ retire_counts_le s.memwb.cur ⟨s.nR, s.nI, s.nJ⟩
    obtain ⟨hHits, hMisses, hAccesses⟩ := memoryStage_counts_le hMemory
    simpa [hCommit] using ⟨hR, hI, hJ, hHits, hMisses, hAccesses⟩

/-- No cycle applies to a run that is `DONE` (R45). -/
theorem clockOutcome_done {s : State} (h : s.status = .done) (w : Word) :
    clockOutcome s w = .fault .runDone := by
  rw [clockOutcome, h]

/-- No cycle applies to a run that is `FAILED` (R45). -/
theorem clockOutcome_failed {s : State} {f : Failure} (h : s.status = .failed f) (w : Word) :
    clockOutcome s w = .fault (.runFailed f) := by
  rw [clockOutcome, h]

end Sys2Proof.Machine

namespace Sys2Proof

open Sys2Proof.Machine

/-- Settles O52: a step that answers a next state is a cycle, which `clock_counts_le` covers. -/
theorem countersNeverDecrease : Obligations.CountersNeverDecrease := by
  intro s t hStep
  obtain ⟨_, rfl⟩ := step_next hStep
  exact clock_counts_le s (fetchWord s)

/-- Settles O51: `step` and every `exec` are `clockOutcome` on some word. -/
theorem finalStatusStops : Obligations.FinalStatusStops := by
  intro s i
  rw [step_eq_clockOutcome, exec_eq_issue, issue]
  exact ⟨fun h => ⟨clockOutcome_done h _, clockOutcome_done h _⟩,
    fun _ h => ⟨clockOutcome_failed h _, clockOutcome_failed h _⟩⟩

end Sys2Proof
end

section
/-! Proofs of the statements of 20_memory.md: the word accesses of R62 and R63, the canonical form over one step
(R60, R64), and the faults of a data address (R64, R65). -/

namespace Sys2Proof.Machine

/-- Four bytes joined are the digits of a number to base 2^8, the first the most significant (R62). -/
theorem wordOfBytes_toNat (b0 b1 b2 b3 : Byte) :
    (wordOfBytes b0 b1 b2 b3).toNat
      = b0.toNat * 2 ^ 24 + b1.toNat * 2 ^ 16 + b2.toNat * 2 ^ 8 + b3.toNat := by
  have hShift : ∀ (x : Nat) (b : Byte), x <<< 8 ||| b.toNat = x * 2 ^ 8 + b.toNat := fun x b => by
    rw [← Nat.shiftLeft_add_eq_or_of_lt b.isLt, Nat.shiftLeft_eq]
  unfold wordOfBytes
  simp only [BitVec.toNat_append, hShift]
  ring

/-- Byte `k` of a stored word reads back, in a canonical memory (R63). -/
theorem byteRead_wordWrite_inside {m : Memory} (a v : Word) {k : Nat} (hm : m.wf = true) (hk : k < 4) :
    byteRead (wordWrite m a v) (a.toNat + k) = byteOfWord v k := by
  rw [wordWrite, byteRead_bytesWrite_inside a.toNat k (bytesOfWord v) hm hk]
  match k, hk with
  | 0, _ | 1, _ | 2, _ | 3, _ => rfl

/-- An address outside the four bytes of a stored word reads as before, in any memory (R63). -/
theorem byteRead_wordWrite_outside (m : Memory) (a v : Word) {x : Nat}
    (hx : x < a.toNat ∨ a.toNat + 4 ≤ x) : byteRead (wordWrite m a v) x = byteRead m x :=
  byteRead_bytesWrite_outside m a.toNat x (bytesOfWord v) hx

/-- A stored word reads back, in a canonical memory (R62, R63). -/
theorem wordRead_wordWrite {m : Memory} (a v : Word) (hm : m.wf = true) :
    wordRead (wordWrite m a v) a = v := by
  have hFirst : byteRead (wordWrite m a v) a.toNat = byteOfWord v 0 :=
    byteRead_wordWrite_inside a v hm (k := 0) (by omega)
  rw [wordRead, hFirst, byteRead_wordWrite_inside a v hm (by omega),
    byteRead_wordWrite_inside a v hm (by omega), byteRead_wordWrite_inside a v hm (by omega),
    wordOfBytes_byteOfWord]

theorem wordWrite_wf {m : Memory} (a v : Word) (hm : m.wf = true) : Memory.wf (wordWrite m a v) = true :=
  bytesWrite_wf a.toNat (bytesOfWord v) hm

/-- The range check keeps a stored word inside the array (R64). -/
theorem wordWrite_below {c : Config} {m : Memory} {a : Word} (v : Word) (hm : memBelow c.memSize m = true)
    (ha : inRange c a = true) : memBelow c.memSize (wordWrite m a v) = true :=
  bytesWrite_below a.toNat (bytesOfWord v) hm (of_decide_eq_true ha)

/-- A memory slot whose address checks passed leaves memory the canonical form of the array. -/
theorem storedMem_canonical {c : Config} {x : ExMem} {m : Memory} (hCheck : accessCheck c x = .ok ())
    (hWf : m.wf = true) (hBelow : memBelow c.memSize m = true) :
    Memory.wf (storedMem x m) = true ∧ memBelow c.memSize (storedMem x m) = true := by
  unfold storedMem
  split
  · next hStore =>
    have hRange := (accessCheck_ok hCheck (.inr hStore)).1
    exact ⟨wordWrite_wf _ _ hWf, wordWrite_below _ hBelow hRange⟩
  · exact ⟨hWf, hBelow⟩

/-- The memory stage, the only writer of memory in a cycle, keeps the canonical form (R279). -/
theorem memoryStage_canonical {c : Config} {x : ExMem} {m : Memory} {n : Nat} {pred : PredState} {o : MemOut}
    (h : memoryStage c x m n pred = .ok o) (hWf : m.wf = true) (hBelow : memBelow c.memSize m = true) :
    Memory.wf o.mem = true ∧ memBelow c.memSize o.mem = true := by
  rcases memoryStage_ok h with ⟨_, rfl⟩ | ⟨_, hCheck, _, hMem, _⟩
  · exact ⟨hWf, hBelow⟩
  · exact hMem ▸ storedMem_canonical hCheck hWf hBelow

/-- A cycle keeps the canonical form: a fatal error leaves memory alone, a commit takes it from the memory stage
(R284, R283). -/
theorem clock_memoryCanonical {s : State} (w : Word) (h : s.MemoryCanonical) : (clock s w).MemoryCanonical := by
  obtain ⟨hWf, hBelow⟩ := h
  rcases clock_cases s w with ⟨e, _, hFail⟩ | ⟨p, hPhases, hCommit⟩
  · rw [hFail]
    exact ⟨hWf, hBelow⟩
  · obtain ⟨_, _, _, _, _, hMemory, _⟩ := phases_ok.mp hPhases
    simpa [hCommit, State.MemoryCanonical] using memoryStage_canonical hMemory hWf hBelow

theorem dataCheck_of_outOfRange {c : Config} {ea : Word} (h : inRange c ea = false) :
    dataCheck c ea = .error ⟨.memOutOfRange, ea⟩ := by
  simp [dataCheck, h]

theorem dataCheck_of_misaligned {c : Config} {ea : Word} (hRange : inRange c ea = true)
    (hAligned : aligned ea = false) : dataCheck c ea = .error ⟨.misalignedData, ea⟩ := by
  simp [dataCheck, hRange, hAligned]

/-- A memory slot that accesses memory at an address that fails its check raises that check's error (R211,
R213). -/
theorem memoryStage_of_dataCheck_error {c : Config} {x : ExMem} (m : Memory) (n : Nat) (pred : PredState)
    {f : Fatal} (hValid : x.valid = true) (hAccess : (x.ctrl.memRead || x.ctrl.memWrite) = true)
    (hError : dataCheck c x.aluResult = .error f) : memoryStage c x m n pred = .error f := by
  simp [memoryStage, accessCheck, hValid, hAccess, hError]

/-- Running three steps, one at a time. -/
theorem run_three_of_steps {s a b c : State} (h1 : step s = .next a) (h2 : step a = .next b)
    (h3 : step b = .next c) : Host.Core.run Sys2Proof.core 3 s = .next c := by
  simp only [Host.Core.run, Sys2Proof.core, h1, h2, h3]

/-- A word taken in by a Ready state fails in its memory cycle, the fourth, when the memory stage raises on its
slot; `out` is what the ALU answers for it. Nothing before that cycle has touched memory. -/
theorem entered_fails {s : State} {w next : Word} {pq : List Bool} (hRun : s.status = .running)
    {out : AluOut} {f : Fatal} (hCode : (decodedSlot s.regs ⟨true, w, s.pc + 4#32⟩).aluctl ≠ .invalid)
    (hAlu : alu s.cfg.sltMode (decodedSlot s.regs ⟨true, w, s.pc + 4#32⟩).aluctl (regRead s.regs (rsOf w))
        (aluOperandB (controlOf (opcodeOf w) (functOf w)).aluSrc (sext32 (immOf w)) (regRead s.regs (rtOf w)))
        (shamtOf w) s.hi s.lo = some out)
    (hMemory : memoryStage s.cfg (executedSlot s.cfg (decodedSlot s.regs ⟨true, w, s.pc + 4#32⟩) out) s.mem
      s.memAccesses (predOf s pq) = .error f) :
    ∃ u, Host.Core.run Sys2Proof.core 3 (s.entered w next pq).fetchHeld = .next u
      ∧ u.status = .failed { cause := f.cause, cycle := s.cycles + 4, info := f.info } ∧ u.mem = s.mem := by
  refine ⟨_, run_three_of_steps
    (step_alone_decode (f := ⟨true, w, s.pc + 4#32⟩) ⟨hRun, rfl, rfl, rfl, rfl, rfl⟩ rfl hCode)
    (step_alone_execute (e := decodedSlot s.regs ⟨true, w, s.pc + 4#32⟩) (out := out)
      ⟨by exact hRun, by rfl, by rfl, by rfl, by rfl, by rfl⟩ rfl (by exact hAlu))
    (step_alone_memory_error (m := executedSlot s.cfg (decodedSlot s.regs ⟨true, w, s.pc + 4#32⟩) out)
      ⟨by exact hRun, by rfl, by rfl, by rfl, by rfl, by rfl⟩ (by exact hMemory)), rfl, rfl⟩

/-- The opcodes of `lw` and `sw` (R89). -/
abbrev AccessOpcode (opcode : BitVec 6) : Prop := opcode = 0x23#6 ∨ opcode = 0x2B#6

/-- The bundle of a load or a store adds the immediate to the base and accesses memory (R113, R214). -/
theorem controlOf_accessOpcode {opcode : BitVec 6} (h : AccessOpcode opcode) (funct : BitVec 6) :
    (controlOf opcode funct).aluOp = 0b00#2 ∧ (controlOf opcode funct).aluSrc = .imm
      ∧ ((controlOf opcode funct).memRead || (controlOf opcode funct).memWrite) = true := by
  rcases h with rfl | rfl <;> simp [controlOf, Ctrl.off]

theorem isBranchWord_of_accessOpcode {w : Word} (h : AccessOpcode (opcodeOf w)) : isBranchWord w = false := by
  rcases h with h | h <;> simp [isBranchWord, h]

/-- The word by which a `lw` or `sw` stands at the pc carries the instruction's base and displacement (R83). -/
theorem wordAtPc_access {rt rs : RegIdx} {imm : BitVec 16} {i : Instr}
    (hi : i ∈ [Instr.lw rt rs imm, Instr.sw rt rs imm]) (s : State) :
    AccessOpcode (opcodeOf (wordAtPc i s)) ∧ rsOf (wordAtPc i s) = rs ∧ immOf (wordAtPc i s) = imm := by
  replace hi := List.mem_pair.mp hi
  have hDecode : decode (encode i) = .instr i := by
    rcases hi with rfl | rfl <;> simp [encode, decode]
  have hFields := fields_of_decode (decode_wordAtPc i s hDecode)
  rcases hi with rfl | rfl
  · obtain ⟨hOpcode, hRs, _, hImm⟩ := hFields
    exact ⟨.inl hOpcode, hRs, hImm⟩
  · obtain ⟨hOpcode, hRs, _, hImm⟩ := hFields
    exact ⟨.inr hOpcode, hRs, hImm⟩

/-- A `lw` or `sw` from a Ready state whose effective address fails its check fails in memory, with that check's
cause at that address (R211, R213, R214). -/
theorem failsInMemory_of_dataCheck_error {s : State} {rt rs : RegIdx} {imm : BitVec 16} {i : Instr}
    {cause : Cause} (hReady : s.Ready) (hi : i ∈ [Instr.lw rt rs imm, Instr.sw rt rs imm])
    (hError : dataCheck s.cfg (effectiveAddress s rs imm) = .error ⟨cause, effectiveAddress s rs imm⟩) :
    FailsInMemory i s cause (effectiveAddress s rs imm) := by
  obtain ⟨hOpcode, hRs, hImm⟩ := wordAtPc_access hi s
  generalize hw : wordAtPc i s = w at hOpcode hRs hImm
  obtain ⟨hAluOp, hAluSrc, hAccess⟩ := controlOf_accessOpcode hOpcode (functOf w)
  have hBranch := isBranchWord_of_accessOpcode hOpcode
  have hCode : (decodedSlot s.regs ⟨true, w, s.pc + 4#32⟩).aluctl = .add := by
    simp [decodedSlot, decoder, fieldsOf, aluControl, hAluOp]
  have hAlu : alu s.cfg.sltMode (decodedSlot s.regs ⟨true, w, s.pc + 4#32⟩).aluctl (regRead s.regs (rsOf w))
      (aluOperandB (controlOf (opcodeOf w) (functOf w)).aluSrc (sext32 (immOf w)) (regRead s.regs (rtOf w)))
      (shamtOf w) s.hi s.lo = some (plainOut (effectiveAddress s rs imm)) := by
    rw [hCode, hAluSrc, hRs, hImm]
    rfl
  obtain ⟨u, hRuns, hStatus, hMem⟩ := entered_fails (next := s.pc + 4#32) (pq := []) hReady.1
    (by simp [hCode]) hAlu (memoryStage_of_dataCheck_error s.mem s.memAccesses (predOf s []) rfl hAccess hError)
  exact ⟨_, u, by simp [exec_of_ready hReady, hw, hBranch], by rw [hw], hRuns, hStatus, hMem⟩

end Sys2Proof.Machine

namespace Sys2Proof

open Sys2Proof.Machine

/-- Settles O57: a step that answers a next state is a cycle, and a store in it has passed the range check. -/
theorem memoryCanonicalKept : Obligations.MemoryCanonicalKept := by
  intro s t hCanonical hStep
  obtain ⟨_, rfl⟩ := step_next hStep
  exact clock_memoryCanonical (fetchWord s) hCanonical

/-- Settles O9: the byte clauses are the four cases of `byteRead_wordWrite_inside`. -/
theorem wordMemory : Obligations.WordMemory := by
  intro m a v hm
  exact ⟨wordOfBytes_toNat _ _ _ _, byteRead_wordWrite_inside a v hm (k := 0) (by omega),
    byteRead_wordWrite_inside a v hm (by omega), byteRead_wordWrite_inside a v hm (by omega),
    byteRead_wordWrite_inside a v hm (by omega), wordRead_wordWrite a v hm,
    fun _ => byteRead_wordWrite_outside m a v, wordWrite_wf a v hm⟩

/-- Settles O24: the two clauses are the two errors of the address check, the range before the alignment. -/
theorem dataAddressFaults : Obligations.DataAddressFaults := by
  intro s rt rs imm hReady i hi
  exact ⟨fun hRange => failsInMemory_of_dataCheck_error hReady hi (dataCheck_of_outOfRange hRange),
    fun hRange hAligned =>
      failsInMemory_of_dataCheck_error hReady hi (dataCheck_of_misaligned hRange hAligned)⟩

end Sys2Proof
end

section
/-! Proofs of the statements of 30_encoding.md: encode and decode (R81 to R84, R89, R90), the fields a
word's decoding does not look at (R94), targets as numbers (R86, R87), the no-op of an unlisted opcode (R92). -/

namespace Sys2Proof

/-- The converse of `fields_of_decode`: the fields of `i` are all the decoder looks at. -/
theorem decode_of_fieldsAre {w : Word} {i : Instr} (h : FieldsAre w i) : decode w = .instr i := by
  cases i with
  | add | addu | sub | subu | and | or | nor | slt | sltu | sll | srl | mult | mfhi | mflo | jr =>
    obtain ⟨hOpcode, hFunct, hOperands⟩ := h
    simp [decode, decodeSpecial, hOpcode, hFunct, hOperands]
  | addi | addiu | lw | sw | beq | bne | j | jal =>
    obtain ⟨hOpcode, hOperands⟩ := h
    simp [decode, hOpcode, hOperands]

/-- The encoder puts every operand into its field (R82 to R84). -/
theorem fieldsAre_encode (i : Instr) : FieldsAre (encode i) i := by
  cases i with
  | add | addu | sub | subu | and | or | nor | slt | sltu | sll | srl | mult | mfhi | mflo | jr =>
    simp [FieldsAre, encode]
  | addi | addiu | lw | sw | beq | bne => simp [FieldsAre, encode]
  | j | jal => simp [FieldsAre, encode]

/-- Settles O1: the encoding of `i` carries the fields of `i`, and these decide what it decodes to. -/
theorem decodeEncode : Obligations.DecodeEncode :=
  fun i => decode_of_fieldsAre (fieldsAre_encode i)

/-- Two words that carry the fields of one instruction decode alike, whatever their other fields (R94). For
words written in their format the field cuts are simp lemmas, hence the default proofs. -/
theorem decode_eq_of_fieldsAre {w w' : Word} (i : Instr) (h : FieldsAre w i := by simp [FieldsAre])
    (h' : FieldsAre w' i := by simp [FieldsAre]) : decode w = decode w' := by
  rw [decode_of_fieldsAre h, decode_of_fieldsAre h']

/-- Settles O3: in each clause the two words carry the fields of the instruction named here. -/
theorem unusedFieldsIgnored : Obligations.UnusedFieldsIgnored := by
  intro rs rt rd rs' rt' rd' sh sh'
  simp only [List.forall_mem_cons, List.not_mem_nil, false_imp_iff, implies_true, and_true]
  exact ⟨⟨decode_eq_of_fieldsAre (.add rd rs rt), decode_eq_of_fieldsAre (.addu rd rs rt),
      decode_eq_of_fieldsAre (.sub rd rs rt), decode_eq_of_fieldsAre (.subu rd rs rt),
      decode_eq_of_fieldsAre (.and rd rs rt), decode_eq_of_fieldsAre (.or rd rs rt),
      decode_eq_of_fieldsAre (.nor rd rs rt), decode_eq_of_fieldsAre (.slt rd rs rt),
      decode_eq_of_fieldsAre (.sltu rd rs rt)⟩,
    ⟨decode_eq_of_fieldsAre (.sll rd rt sh), decode_eq_of_fieldsAre (.srl rd rt sh)⟩,
    decode_eq_of_fieldsAre (.mult rs rt),
    ⟨decode_eq_of_fieldsAre (.mfhi rd), decode_eq_of_fieldsAre (.mflo rd)⟩,
    decode_eq_of_fieldsAre (.jr rs)⟩

end Sys2Proof

namespace Sys2Proof.Machine

theorem sext32_toInt (imm : BitVec 16) : (sext32 imm).toInt = imm.toInt :=
  BitVec.toInt_signExtend_of_le (by decide)

/-- The branch target as a number, for every offset word (R86). -/
theorem branchTarget_toNat (pc4 offset : Word) :
    ((branchTarget pc4 offset).toNat : Int) = (pc4.toNat + 4 * offset.toInt) % 2 ^ 32 := by
  have hShift : (offset <<< 2).toNat = offset.toNat * 4 % 2 ^ 32 := by
    rw [BitVec.toNat_shiftLeft, Nat.shiftLeft_eq]
  have hSigned := BitVec.toInt_eq_toNat_cond offset
  rw [branchTarget, BitVec.toNat_add, hShift]
  omega

/-- Bits joined before others stand above them as a number. -/
theorem toNat_append_eq_add {m n : Nat} (x : BitVec m) (y : BitVec n) :
    (x ++ y).toNat = x.toNat * 2 ^ n + y.toNat := by
  rw [BitVec.toNat_append, ← Nat.shiftLeft_add_eq_or_of_lt y.isLt, Nat.shiftLeft_eq]

/-- The jump target as a number (R87). -/
theorem jumpTarget_toNat (pc4 : Word) (target : BitVec 26) :
    (jumpTarget pc4 target).toNat = pc4.toNat / 2 ^ 28 * 2 ^ 28 + target.toNat * 4 := by
  have hTop : (pc4.extractLsb' 28 4).toNat = pc4.toNat / 2 ^ 28 := by
    rw [BitVec.extractLsb'_toNat, Nat.shiftRight_eq_div_pow, Nat.mod_eq_of_lt (by omega)]
  have hLow : (0b00#2).toNat = 0 := rfl
  rw [jumpTarget, toNat_append_eq_add, toNat_append_eq_add, hTop, hLow]
  omega

/-- A memory slot that neither accesses memory nor is a branch is handed on, and redirects only as a jump
(R279, R241). -/
theorem memoryStage_of_no_access {c : Config} {m : ExMem} (mem : Memory) (n : Nat) (pred : PredState)
    (hValid : m.valid = true) (hRead : m.ctrl.memRead = false) (hWrite : m.ctrl.memWrite = false)
    (hBranch : m.ctrl.branch = false) :
    memoryStage c m mem n pred
      = .ok ⟨accessedSlot m 0#32, mem, n, pred, if m.ctrl.jump then some (jumpDestination m) else none⟩ := by
  have hCheck : accessCheck c m = .ok () := by simp [accessCheck, hRead, hWrite]
  have hResolve : resolveBranch c.predMode m pred = .ok (pred, none) := by simp [resolveBranch, hBranch]
  rw [memoryStage_of_valid mem n hValid hCheck hResolve]
  simp [loadedData, storedMem, accessCount, hRead, hWrite]

theorem opcode_ne_of_unlisted {opcode : BitVec 6} (h : opcode ∉ listedOpcodes) :
    opcode ≠ 0x00#6 ∧ opcode ≠ 0x02#6 ∧ opcode ≠ 0x03#6 ∧ opcode ≠ 0x04#6 ∧ opcode ≠ 0x05#6
      ∧ opcode ≠ 0x08#6 ∧ opcode ≠ 0x09#6 ∧ opcode ≠ 0x23#6 ∧ opcode ≠ 0x2B#6 := by
  simpa using h

/-- An opcode outside R89 has the disabled bundle (R112). -/
theorem controlOf_of_unlisted {opcode : BitVec 6} (h : opcode ∉ listedOpcodes) (funct : BitVec 6) :
    controlOf opcode funct = .off := by
  simp [controlOf, opcode_ne_of_unlisted h]

theorem isBranchWord_of_unlisted {w : Word} (h : opcodeOf w ∉ listedOpcodes) : isBranchWord w = false := by
  simp [isBranchWord, opcode_ne_of_unlisted h]

/-- A slot whose opcode is outside R89 retires in `n_I` (R92, R282). -/
theorem retire_of_unlisted {w : MemWb} (g : Histogram) (hValid : w.valid = true)
    (h : w.opcode ∉ listedOpcodes) : retire w g = { g with nI := g.nI + 1 } := by
  simp [retire, hValid, opcode_ne_of_unlisted h]

/-- Where a word with an opcode outside R89, taken in by a Ready state, ends: the ALU adds its operands, and
with the disabled bundle no later stage uses the sum (R92, R122). -/
theorem entered_unlisted_drainsTo {s : State} {w : Word} (hReady : s.Ready)
    (h : opcodeOf w ∉ listedOpcodes) :
    (s.entered w (s.pc + 4#32) []).DrainsTo { s.drained with pc := s.pc + 4#32, nI := s.nI + 1 } := by
  obtain ⟨hRun, -, hQueue, -⟩ := hReady
  have hCtrl : controlOf (opcodeOf w) (functOf w) = .off := controlOf_of_unlisted h _
  have hSlotCtrl : (decodedSlot s.regs ⟨true, w, s.pc + 4#32⟩).ctrl = .off := hCtrl
  have hCode : (decodedSlot s.regs ⟨true, w, s.pc + 4#32⟩).aluctl = .add := by
    simp [decodedSlot, decoder, fieldsOf, hCtrl, Ctrl.off, aluControl]
  have hMemory := memoryStage_of_no_access (c := s.cfg)
    (m := executedSlot s.cfg (decodedSlot s.regs ⟨true, w, s.pc + 4#32⟩)
      (plainOut (regRead s.regs (rsOf w) + regRead s.regs (rtOf w))))
    s.mem s.memAccesses (predOf s []) rfl (congrArg Ctrl.memRead hSlotCtrl) (congrArg Ctrl.memWrite hSlotCtrl)
    (congrArg Ctrl.branch hSlotCtrl)
  have hDrains := entered_drainsTo (next := s.pc + 4#32) hRun (by simp [hCode])
    (by rw [hCode, hCtrl]; rfl) hMemory rfl
  rw [retire_of_unlisted _ rfl h] at hDrains
  simpa [accessedSlot, executedSlot, hSlotCtrl, Ctrl.off, predOf, plainOut, hiAfter, loAfter, hQueue]
    using hDrains

end Sys2Proof.Machine

namespace Sys2Proof

open Sys2Proof.Machine

/-- Settles O14: the offset word's signed value is the immediate's. -/
theorem targetNumbers : Obligations.TargetNumbers := by
  intro pc4 imm target
  exact ⟨sext32_toInt imm ▸ branchTarget_toNat pc4 (sext32 imm), jumpTarget_toNat pc4 target⟩

/-- Settles O28: the word is no branch, so fetch goes on to the next word, and it drains as
`entered_unlisted_drainsTo` says. -/
theorem unknownOpcodeIsNoOp : Obligations.UnknownOpcodeIsNoOp := by
  intro s hReady hDecode
  have hUnlisted : opcodeOf (fetchWord s) ∉ listedOpcodes := (decodeIsTotal (fetchWord s)).1.mp hDecode
  refine ⟨_, ?_, rfl, entered_unlisted_drainsTo hReady hUnlisted⟩
  rw [step_running hReady.1, clock_of_ready hReady]
  simp [isBranchWord_of_unlisted hUnlisted]

end Sys2Proof
end

section
/-! Proofs of the statements of 40_decoder.md: the tables of the bundle (R111 to R113), the ALU-control code
(R122) and the read set (R120) for every word, and the slots' bundles and addresses over one step (R110, R226). -/

namespace Sys2Proof.Machine

/-- Opcode 0 has the R-type bundle (R111). -/
theorem controlOf_special (funct : BitVec 6) : controlOf 0x00#6 funct = rTypeCtrl funct := rfl

theorem funct_ne_of_unlisted {funct : BitVec 6} (h : funct ∉ listedFuncts) :
    funct ≠ 0x00#6 ∧ funct ≠ 0x02#6 ∧ funct ≠ 0x08#6 ∧ funct ≠ 0x10#6 ∧ funct ≠ 0x12#6 ∧ funct ≠ 0x18#6
      ∧ funct ≠ 0x20#6 ∧ funct ≠ 0x21#6 ∧ funct ≠ 0x22#6 ∧ funct ≠ 0x23#6 ∧ funct ≠ 0x24#6
      ∧ funct ≠ 0x25#6 ∧ funct ≠ 0x27#6 ∧ funct ≠ 0x2A#6 ∧ funct ≠ 0x2B#6 := by
  simpa using h

/-- A function code outside R90 has the R-type bundle with the register write and no jump (R111). -/
theorem rTypeCtrl_of_unlisted {funct : BitVec 6} (h : funct ∉ listedFuncts) :
    rTypeCtrl funct = ⟨.rd, .reg, .alu, true, false, false, false, false, 0b10#2⟩ := by
  simp [rTypeCtrl, funct_ne_of_unlisted h]

theorem aluctlOfFunct_of_listed : ∀ funct ∈ listedFuncts, aluctlOfFunct funct ≠ .invalid := by decide

/-- The codes of ALUOp 10 are those of the function codes of R90 (R122). -/
theorem aluctlOfFunct_eq_invalid_iff (funct : BitVec 6) :
    aluctlOfFunct funct = .invalid ↔ funct ∉ listedFuncts := by
  by_cases h : funct ∈ listedFuncts
  · exact iff_of_false (aluctlOfFunct_of_listed funct h) (not_not_intro h)
  · exact iff_of_true (by simp [aluctlOfFunct, funct_ne_of_unlisted h]) h

/-- Opcode 0 takes its ALU-control code from the function code (R122). -/
theorem aluControl_special (funct opcode : BitVec 6) :
    aluControl (controlOf 0x00#6 funct).aluOp funct opcode = aluctlOfFunct funct := rfl

/-- Under every other opcode the ALU adds or compares for a branch (R112, R122). -/
theorem aluOp_of_opcode_ne_zero {opcode : BitVec 6} (h : opcode ≠ 0x00#6) (funct : BitVec 6) :
    (controlOf opcode funct).aluOp = 0b00#2 ∨ (controlOf opcode funct).aluOp = 0b01#2 := by
  unfold controlOf
  rw [if_neg h]
  split_ifs <;> simp [Ctrl.off]

/-- `INVALID` is the code of opcode 0 with a function code outside R90, and of nothing else (R122, R124). -/
theorem aluControl_eq_invalid_iff (opcode funct : BitVec 6) :
    aluControl (controlOf opcode funct).aluOp funct opcode = .invalid
      ↔ opcode = 0x00#6 ∧ funct ∉ listedFuncts := by
  by_cases hOpcode : opcode = 0x00#6
  · subst hOpcode
    simp only [aluControl_special, aluctlOfFunct_eq_invalid_iff, true_and]
  · refine iff_of_false ?_ fun h => hOpcode h.1
    rcases aluOp_of_opcode_ne_zero hOpcode funct with hAdd | hBranch
    · simp [aluControl, hAdd]
    · rw [hBranch]
      by_cases hBne : opcode = 0x05#6 <;> simp [aluControl, hBne]

/-- The read set is the source fields in use, index 0 removed (R120). -/
theorem mem_readSet {opcode funct : BitVec 6} {rs rt r : RegIdx} :
    r ∈ readSet opcode funct rs rt ↔
      ((usesRs opcode funct = true ∧ r = rs) ∨ (usesRt opcode funct = true ∧ r = rt)) ∧ r ≠ 0#5 := by
  unfold readSet
  cases usesRs opcode funct <;> cases usesRt opcode funct <;> simp

/-- Opcode 0 with a function code outside R90 reads both its source fields (R120). -/
theorem uses_of_unlisted_funct {funct : BitVec 6} (h : funct ∉ listedFuncts) :
    usesRs 0x00#6 funct = true ∧ usesRt 0x00#6 funct = true := by
  simp [usesRs, usesRt, funct_ne_of_unlisted h]

/-- An opcode outside R89 reads nothing (R120). -/
theorem uses_of_unlisted_opcode {opcode : BitVec 6} (h : opcode ∉ listedOpcodes) (funct : BitVec 6) :
    usesRs opcode funct = false ∧ usesRt opcode funct = false := by
  simp [usesRs, usesRt, opcode_ne_of_unlisted h]

end Sys2Proof.Machine

namespace Sys2Proof

open Sys2Proof.Machine

/-- A word that decodes to `i` has the bundle of `i` (R111 to R113). -/
theorem controlOf_of_decode {w : Word} {i : Instr} (h : decode w = .instr i) :
    controlOf (opcodeOf w) (functOf w) = i.bundleRow := by
  have hFields := fields_of_decode h
  cases i with
  | add | addu | sub | subu | and | or | nor | slt | sltu | sll | srl | mult | mfhi | mflo | jr =>
    obtain ⟨hOpcode, hFunct, -⟩ := hFields
    rw [hOpcode, hFunct]
    rfl
  | addi | addiu | lw | sw | beq | bne | j | jal =>
    rw [hFields.1]
    rfl

/-- Settles O5: by what the word decodes to; the opcode and the function code of each case decide the bundle. -/
theorem bundleTable : Obligations.BundleTable := by
  intro w
  obtain ⟨hNoOpcode, hNoFunct, -⟩ := decodeIsTotal w
  refine ⟨fun i => controlOf_of_decode, fun h => ?_, fun h => ?_⟩
  · obtain ⟨hOpcode, hUnlisted⟩ := hNoFunct.mp h
    rw [decoder, hOpcode, controlOf_special, rTypeCtrl_of_unlisted hUnlisted]
  · exact controlOf_of_unlisted (hNoOpcode.mp h) (functOf w)

/-- A word that decodes to `i` has the ALU-control code of `i` (R122). -/
theorem aluControl_of_decode {w : Word} {i : Instr} (h : decode w = .instr i) :
    aluControl i.bundleRow.aluOp (functOf w) (opcodeOf w) = i.aluRow := by
  have hFields := fields_of_decode h
  cases i with
  | add | addu | sub | subu | and | or | nor | slt | sltu | sll | srl | mult | mfhi | mflo | jr =>
    obtain ⟨-, hFunct, -⟩ := hFields
    rw [hFunct]
    rfl
  | addi | addiu | lw | sw | j | jal => rfl
  | beq | bne =>
    rw [hFields.1]
    rfl

/-- Settles O6: the bundle's ALUOp is the table row's, and `INVALID` stands where the word has an unlisted function
code. -/
theorem aluCodeTable : Obligations.AluCodeTable := by
  intro w
  refine ⟨fun i hInstr => ?_, ?_⟩
  · rw [decoder, controlOf_of_decode hInstr, aluControl_of_decode hInstr]
  · rw [decoder, aluControl_eq_invalid_iff, (decodeIsTotal w).2.1]

/-- A word that decodes to `i` reads the registers of the row of `i`, index 0 removed (R120). -/
theorem mem_readsOf_of_decode {w : Word} {i : Instr} (h : decode w = .instr i) (r : RegIdx) :
    r ∈ readsOf w ↔ r ∈ i.readsRow ∧ r ≠ 0#5 := by
  have hFields := fields_of_decode h
  rw [readsOf, mem_readSet]
  cases i with
  | add | addu | sub | subu | and | or | nor | slt | sltu | sll | srl | mult | mfhi | mflo | jr =>
    obtain ⟨hOpcode, hFunct, hOperands⟩ := hFields
    simp [usesRs, usesRt, hOpcode, hFunct, hOperands, Instr.readsRow]
  | addi | addiu | lw | sw | beq | bne | j | jal =>
    obtain ⟨hOpcode, hOperands⟩ := hFields
    simp [usesRs, usesRt, hOpcode, hOperands, Instr.readsRow]

/-- Settles O7: by what the word decodes to; the opcode and the function code of each case decide which source
fields are in use. -/
theorem readSetTable : Obligations.ReadSetTable := by
  intro w r
  obtain ⟨hNoOpcode, hNoFunct, -⟩ := decodeIsTotal w
  refine ⟨fun i hInstr => mem_readsOf_of_decode hInstr r, fun h => ?_, fun h => ?_⟩
  · obtain ⟨hOpcode, hUnlisted⟩ := hNoFunct.mp h
    obtain ⟨hRs, hRt⟩ := uses_of_unlisted_funct hUnlisted
    simp [readsOf, mem_readSet, hOpcode, hRs, hRt]
  · obtain ⟨hRs, hRt⟩ := uses_of_unlisted_opcode (hNoOpcode.mp h) (functOf w)
    simp [readsOf, readSet, hRs, hRt]

end Sys2Proof

namespace Sys2Proof.Machine

/-! ### Addresses that are multiples of 4 -/

theorem aligned_iff {a : Word} : aligned a = true ↔ a.toNat % 4 = 0 := by
  simp [aligned]

theorem aligned_add_four {a : Word} (h : aligned a = true) : aligned (a + 4#32) = true := by
  rw [aligned_iff] at h ⊢
  bv_omega

/-- A branch target is as aligned as the pc it starts from: the offset counts words (R86). -/
theorem aligned_branchTarget {pc4 : Word} (h : aligned pc4 = true) (offset : Word) :
    aligned (branchTarget pc4 offset) = true := by
  have hTarget := branchTarget_toNat pc4 offset
  rw [aligned_iff] at h ⊢
  omega

/-- A jump target ends in two zero bits, whatever the pc (R87). -/
theorem aligned_jumpTarget (pc4 : Word) (target : BitVec 26) : aligned (jumpTarget pc4 target) = true := by
  have hTarget := jumpTarget_toNat pc4 target
  rw [aligned_iff]
  omega

/-! ### What the invariant asks of each slot -/

/-- An `IDEX` slot's bundle and code are the decoder's for its word (R110, R276). -/
abbrev IdEx.FromDecoder (e : IdEx) : Prop :=
  e.valid = true → e.ctrl = controlOf e.opcode e.funct ∧ e.aluctl = aluControl e.ctrl.aluOp e.funct e.opcode

/-- An `EXMEM` slot's bundle is the decoder's for its word (R277). -/
abbrev ExMem.FromDecoder (m : ExMem) : Prop := m.valid = true → m.ctrl = controlOf m.opcode m.funct

/-- A `MEMWB` slot, which carries no function code, has the decoder's bundle for some word of its opcode
(R279). -/
abbrev MemWb.FromDecoder (w : MemWb) : Prop := w.valid = true → ∃ funct, w.ctrl = controlOf w.opcode funct

/-- The addresses an `EXMEM` slot carries are multiples of 4 (R226). -/
abbrev ExMem.Aligned (m : ExMem) : Prop :=
  aligned m.pc4 = true ∧ aligned m.brTarget = true ∧ aligned m.jmpTarget = true

theorem bundlesFromDecoder_iff (s : State) : s.BundlesFromDecoder ↔
    s.idex.cur.FromDecoder ∧ s.exmem.cur.FromDecoder ∧ s.memwb.cur.FromDecoder := Iff.rfl

theorem slotsAligned_iff (s : State) : s.SlotsAligned ↔
    aligned s.ifid.cur.pc4 = true ∧ aligned s.idex.cur.pc4 = true ∧ s.exmem.cur.Aligned := Iff.rfl

theorem IdEx.bubble_fromDecoder : IdEx.bubble.FromDecoder := by simp [IdEx.FromDecoder]

theorem ExMem.bubble_fromDecoder : ExMem.bubble.FromDecoder := by simp [ExMem.FromDecoder]

theorem MemWb.bubble_fromDecoder : MemWb.bubble.FromDecoder := by simp [MemWb.FromDecoder]

theorem ExMem.bubble_aligned : ExMem.bubble.Aligned := by decide

/-! ### One lemma per stage -/

/-- Fetch checks the pc of the word it reads, and a held slot is the one it was (R66, R273, R306). -/
theorem fetchStage_aligned {s : State} {stall : Bool} {w : Word} {o : FetchOut}
    (h : fetchStage s stall w = .ok o) (hHeld : aligned s.ifid.cur.pc4 = true) :
    aligned o.ifid.pc4 = true := by
  rcases fetchStage_ok h with
    ⟨_, rfl⟩ | ⟨_, _, rfl⟩ | ⟨_, _, _, hPc, _, rfl⟩ | ⟨_, _, _, hPc, _, rfl⟩
  · rfl
  · exact hHeld
  · exact aligned_add_four hPc
  · exact aligned_add_four hPc

theorem decodeStage_fromDecoder {c : Config} {regs : RegFile} {f : IfId} {e : IdEx} {stall : Bool} {d : IdEx}
    (h : decodeStage c regs f e stall = .ok d) : d.FromDecoder := by
  rcases decodeStage_ok h with ⟨_, rfl⟩ | ⟨_, _, rfl, _⟩
  · exact IdEx.bubble_fromDecoder
  · exact fun _ => ⟨rfl, rfl⟩

theorem decodeStage_aligned {c : Config} {regs : RegFile} {f : IfId} {e : IdEx} {stall : Bool} {d : IdEx}
    (h : decodeStage c regs f e stall = .ok d) (hPc4 : aligned f.pc4 = true) : aligned d.pc4 = true := by
  rcases decodeStage_ok h with ⟨_, rfl⟩ | ⟨_, _, rfl, _⟩
  · rfl
  · exact hPc4

/-- Forwarding replaces operand values and nothing else, neither codes nor addresses (R311). -/
theorem forwarded_eq_with_operands (c : Config) (p : Phases) :
    ∃ rsVal rtVal, forwarded c p = { p.decoded with rsVal := rsVal, rtVal := rtVal } := by
  unfold forwarded
  split
  · exact ⟨_, _, rfl⟩
  · exact ⟨_, _, rfl⟩

theorem forwarded_fromDecoder (c : Config) {p : Phases} (h : p.decoded.FromDecoder) :
    (forwarded c p).FromDecoder := by
  obtain ⟨_, _, hForwarded⟩ := forwarded_eq_with_operands c p
  rw [hForwarded]
  exact h

@[simp] theorem forwarded_pc4 (c : Config) (p : Phases) : (forwarded c p).pc4 = p.decoded.pc4 := by
  obtain ⟨_, _, hForwarded⟩ := forwarded_eq_with_operands c p
  rw [hForwarded]

theorem executeStage_fromDecoder {c : Config} {e : IdEx} {hi lo : Word} {x : ExMem}
    {hilo : Option (Word × Word)} (h : executeStage c e hi lo = .ok (x, hilo)) (hBundle : e.FromDecoder) :
    x.FromDecoder := by
  rcases executeStage_ok h with ⟨_, rfl, _⟩ | ⟨hValid, _, _, rfl, _⟩
  · exact ExMem.bubble_fromDecoder
  · exact fun _ => (hBundle hValid).1

/-- Execute makes the two targets from an aligned pc4 (R277, R226). -/
theorem executeStage_aligned {c : Config} {e : IdEx} {hi lo : Word} {x : ExMem}
    {hilo : Option (Word × Word)} (h : executeStage c e hi lo = .ok (x, hilo))
    (hPc4 : aligned e.pc4 = true) : x.Aligned := by
  rcases executeStage_ok h with ⟨_, rfl, _⟩ | ⟨_, _, _, rfl, _⟩
  · exact ExMem.bubble_aligned
  · exact ⟨hPc4, aligned_branchTarget hPc4 e.imm, aligned_jumpTarget e.pc4 e.target⟩

theorem memoryStage_fromDecoder {c : Config} {m : ExMem} {mem : Memory} {n : Nat} {pred : PredState}
    {o : MemOut} (h : memoryStage c m mem n pred = .ok o) (hBundle : m.FromDecoder) :
    o.memwb.FromDecoder := by
  rcases memoryStage_ok h with ⟨_, rfl⟩ | ⟨hValid, _, hSlot, _⟩
  · exact MemWb.bubble_fromDecoder
  · rw [hSlot]
    exact fun _ => ⟨m.funct, hBundle hValid⟩

/-! ### One cycle -/

@[simp] theorem terminate_bundlesFromDecoder (s : State) :
    (terminate s).BundlesFromDecoder ↔ s.BundlesFromDecoder := by
  simp only [bundlesFromDecoder_iff, terminate_idex, terminate_exmem, terminate_memwb]

@[simp] theorem terminate_slotsAligned (s : State) : (terminate s).SlotsAligned ↔ s.SlotsAligned := by
  simp only [slotsAligned_iff, terminate_ifid, terminate_idex, terminate_exmem]

/-- The slots that a cycle hands to its commit have the decoder's bundles: each stage's by its lemma, a flushed
one as a bubble (R275, R283). -/
theorem commit_bundlesFromDecoder {s : State} {w : Word} {p : Phases} (hPhases : phases s w = .ok p)
    (h : s.BundlesFromDecoder) : (commit s p).BundlesFromDecoder := by
  obtain ⟨_, _, _, hDecode, hExecute, hMemory, _⟩ := phases_ok.mp hPhases
  obtain ⟨hIdEx, hExMem, _⟩ := (bundlesFromDecoder_iff s).mp h
  rw [bundlesFromDecoder_iff]
  simp only [commit_idex, commit_exmem, commit_memwb, PipeReg.both_cur, afterFlush]
  have hMemWb := memoryStage_fromDecoder hMemory hExMem
  split
  · exact ⟨IdEx.bubble_fromDecoder, ExMem.bubble_fromDecoder, hMemWb⟩
  · exact ⟨forwarded_fromDecoder s.cfg (decodeStage_fromDecoder hDecode),
      executeStage_fromDecoder hExecute hIdEx, hMemWb⟩

/-- The slots that a cycle hands to its commit carry aligned addresses: each stage's by its lemma, a flushed one
as a bubble (R275, R283). -/
theorem commit_slotsAligned {s : State} {w : Word} {p : Phases} (hPhases : phases s w = .ok p)
    (h : s.SlotsAligned) : (commit s p).SlotsAligned := by
  obtain ⟨_, _, hFetch, hDecode, hExecute, _, _⟩ := phases_ok.mp hPhases
  obtain ⟨hIfId, hIdEx, _⟩ := (slotsAligned_iff s).mp h
  rw [slotsAligned_iff]
  simp only [commit_ifid, commit_idex, commit_exmem, PipeReg.both_cur, afterFlush]
  split
  · exact ⟨rfl, rfl, ExMem.bubble_aligned⟩
  · rw [forwarded_pc4]
    exact ⟨fetchStage_aligned hFetch hIfId, decodeStage_aligned hDecode hIfId,
      executeStage_aligned hExecute hIdEx⟩

end Sys2Proof.Machine

namespace Sys2Proof

open Sys2Proof.Machine

/-- Settles O59: a fatal error leaves the slots alone, and the termination check after a commit does too. -/
theorem bundlesAndAddressesKept : Obligations.BundlesAndAddressesKept := by
  intro s t hBundles hAligned hStep
  obtain ⟨_, rfl⟩ := step_next hStep
  rcases clock_cases s (fetchWord s) with ⟨e, _, hFail⟩ | ⟨p, hPhases, hCommit⟩
  · rw [hFail]
    exact ⟨hBundles, hAligned⟩
  · rw [hCommit, terminate_bundlesFromDecoder, terminate_slotsAligned]
    exact ⟨commit_bundlesFromDecoder hPhases hBundles, commit_slotsAligned hPhases hAligned⟩

end Sys2Proof
end

section
/-! Proofs of the statements of 41_alu.md: the results and the flag of the operations (R142 to R149), the two
modes of `SLT` (R145), the exact product (R151), and the branch forms (R152). -/

namespace Sys2Proof.Machine

/-! ### The flag, and the results as numbers and bits -/

/-- The flag of an operation that returns no HI/LO pair is set exactly on the result 0 (R142 to R149). -/
@[simp] theorem plainOut_zero_iff (r : Word) : (plainOut r).zero = true ↔ r = 0#32 :=
  beq_iff_eq

/-- The wrapped difference is the difference of the values modulo 2^32 (R143). -/
theorem toNat_sub_eq_emod (a b : Word) :
    ((a - b).toNat : Int) = ((a.toNat : Int) - b.toNat) % 2 ^ 32 := by
  rw [BitVec.toNat_sub]
  omega

/-- A left shift multiplies by the power of two, modulo 2^32 (R147). -/
theorem toNat_shiftLeft_eq_mul (b : Word) (k : Nat) : (b <<< k).toNat = (b.toNat * 2 ^ k) % 2 ^ 32 := by
  rw [BitVec.toNat_shiftLeft, Nat.shiftLeft_eq]

/-- A right shift is the quotient by the power of two (R147). -/
theorem toNat_ushiftRight_eq_div (b : Word) (k : Nat) : (b >>> k).toNat = b.toNat / 2 ^ k := by
  rw [BitVec.toNat_ushiftRight, Nat.shiftRight_eq_div_pow]

/-- Bit `k` of `NOR`; the bound matters, since past bit 31 every bit of a word is 0 (R144). -/
theorem getLsbD_nor (a b : Word) {k : Nat} (hk : k < 32) :
    (~~~(a ||| b)).getLsbD k = !(a.getLsbD k || b.getLsbD k) := by
  simp [hk]

/-- The result of `SLTU` as a number (R146). -/
theorem sltuResult_toNat (a b : Word) :
    (sltuResult a b).toNat = if a.toNat < b.toNat then 1 else 0 := by
  unfold sltuResult
  split <;> rfl

/-! ### The two modes of SLT -/

/-- Under `TRUE_COMPARE` the result 1 is the signed comparison (R145). -/
theorem sltResult_trueCompare_eq_one_iff (a b : Word) :
    sltResult .trueCompare a b = 1#32 ↔ a.toInt < b.toInt := by
  simp [sltResult]

/-- Under `SIGN_OF_DIFF` the result 1 is the sign bit of the wrapped difference (R145). -/
theorem sltResult_signOfDiff_eq_one_iff (a b : Word) :
    sltResult .signOfDiff a b = 1#32 ↔ (a - b).msb = true := by
  simp [sltResult]

/-- Under either mode `SLT` answers 0 or 1 (R145). -/
theorem sltResult_eq_zero_or_one (mode : SltMode) (a b : Word) :
    sltResult mode a b = 0#32 ∨ sltResult mode a b = 1#32 := by
  cases mode <;> exact (ite_eq_or_eq _ _ _).symm

/-- Where the signed difference does not overflow, the sign of the wrapped one is the signed comparison (R145). -/
theorem msb_sub_iff_toInt_lt {a b : Word} (hLow : -2 ^ 31 ≤ a.toInt - b.toInt)
    (hHigh : a.toInt - b.toInt ≤ 2 ^ 31 - 1) : (a - b).msb = true ↔ a.toInt < b.toInt := by
  have hDiff : (a - b).toInt = a.toInt - b.toInt := by
    rw [BitVec.toInt_sub]
    exact Int.bmod_eq_of_le (by omega) (by omega)
  rw [BitVec.msb_eq_toInt, hDiff, decide_eq_true_iff]
  omega

/-- The two modes agree where the signed difference does not overflow (R145). -/
theorem sltResult_modes_agree {a b : Word} (hLow : -2 ^ 31 ≤ a.toInt - b.toInt)
    (hHigh : a.toInt - b.toInt ≤ 2 ^ 31 - 1) :
    sltResult .trueCompare a b = sltResult .signOfDiff a b := by
  simp only [sltResult, msb_sub_iff_toInt_lt hLow hHigh]

/-! ### The exact product -/

/-- A 64-bit value as its signed high half and its unsigned low half. -/
theorem toInt_eq_halves (p : BitVec 64) :
    (p.extractLsb' 32 32).toInt * 2 ^ 32 + (p.extractLsb' 0 32).toNat = p.toInt := by
  have hJoin : p.extractLsb' 32 32 ++ p.extractLsb' 0 32 = p :=
    (BitVec.extractLsb'_append_extractLsb'_eq_extractLsb' rfl).trans BitVec.extractLsb'_eq_self
  calc (p.extractLsb' 32 32).toInt * 2 ^ 32 + ((p.extractLsb' 0 32).toNat : Int)
      = (p.extractLsb' 32 32 ++ p.extractLsb' 0 32).toInt := by
        rw [BitVec.toInt_append, mul_comm]
        rfl
    _ = p.toInt := by rw [hJoin]

/-- The product of two signed words fits in 64 bits (R151). -/
theorem product_toInt (a b : Word) : (product a b).toInt = a.toInt * b.toInt := by
  have hLow : -2 ^ 62 ≤ a.toInt * b.toInt := BitVec.le_toInt_mul_toInt
  have hHigh : a.toInt * b.toInt ≤ 2 ^ 62 := BitVec.toInt_mul_toInt_le
  exact BitVec.toInt_ofInt_eq_self (by omega) (by omega) (by omega)

end Sys2Proof.Machine

namespace Sys2Proof

open Sys2Proof.Machine

/-- Settles O11: without overflow the wrapped difference has the sign of the true one. -/
theorem sltModes : Obligations.SltModes := by
  intro a b
  refine ⟨sltResult_trueCompare_eq_one_iff a b, ?_, fun m => sltResult_eq_zero_or_one m a b,
    fun ⟨hLow, hHigh⟩ => sltResult_modes_agree hLow hHigh⟩
  rw [sltResult_signOfDiff_eq_one_iff, BitVec.msb_eq_getLsbD_last]

/-- Settles O12: the two halves make up the 64-bit product, which is the exact one. -/
theorem multIsExact : Obligations.MultIsExact := fun _ a b _ _ _ =>
  ⟨_, _, rfl, (toInt_eq_halves (product a b)).trans (product_toInt a b)⟩

/-- Settles O10: every operation here answers a `plainOut`, so each conjunct asks for its result alone. -/
theorem aluResults : Obligations.AluResults := by
  intro m a b hi lo sh
  refine ⟨⟨_, rfl, ?add, plainOut_zero_iff _, rfl⟩, ⟨_, rfl, ?sub, plainOut_zero_iff _, rfl⟩,
    ⟨_, rfl, ?sll, plainOut_zero_iff _, rfl⟩, ⟨_, rfl, ?srl, plainOut_zero_iff _, rfl⟩,
    ⟨_, rfl, ?and, plainOut_zero_iff _, rfl⟩, ⟨_, rfl, ?or, plainOut_zero_iff _, rfl⟩,
    ⟨_, rfl, ?nor, plainOut_zero_iff _, rfl⟩, ⟨_, rfl, ?sltu, plainOut_zero_iff _, rfl⟩,
    ⟨_, rfl, rfl, plainOut_zero_iff _, rfl⟩, ⟨_, rfl, rfl, plainOut_zero_iff _, rfl⟩,
    ⟨_, rfl, rfl, plainOut_zero_iff _, rfl⟩⟩
  case add => exact BitVec.toNat_add a b
  case sub => exact toNat_sub_eq_emod a b
  case sll => exact toNat_shiftLeft_eq_mul b sh.toNat
  case srl => exact toNat_ushiftRight_eq_div b sh.toNat
  case and => exact fun _ _ => BitVec.getLsbD_and
  case or => exact fun _ _ => BitVec.getLsbD_or
  case nor => exact fun _ => getLsbD_nor a b
  case sltu => exact sltuResult_toNat a b

/-- Settles O13: the flag of each form is the model's boolean comparison of the operands. -/
theorem branchFlags : Obligations.BranchFlags := fun _ _ _ _ _ _ =>
  ⟨⟨_, rfl, rfl, beq_iff_eq, rfl⟩, ⟨_, rfl, rfl, bne_iff_ne, rfl⟩⟩

end Sys2Proof
end

section
/-! Proofs of the statements of 42_arith_logic.md: the arithmetic, logic, compare and shift instructions complete
(R170 to R183). They share one path: the ALU's result goes to a register, and no stage does anything else. -/

namespace Sys2Proof.Machine

/-! ### What the pipeline makes of an instruction's word -/

/-- The word by which an instruction stands at the pc carries its operands. -/
theorem fieldsAre_wordAtPc (i : Instr) (s : State) : FieldsAre (wordAtPc i s) i :=
  fields_of_decode (decode_wordAtPc i s (decodeEncode i))

/-- No instruction of R3 has the code `INVALID` (R122). -/
theorem aluRow_ne_invalid (i : Instr) : i.aluRow ≠ .invalid := by
  cases i <;> simp [Instr.aluRow]

/-- Fetch takes a word for a branch exactly where the bundle of its instruction does (R113, R273). -/
theorem isBranchWord_of_decode {w : Word} {i : Instr} (h : decode w = .instr i) :
    isBranchWord w = i.bundleRow.branch := by
  have hFields := fields_of_decode h
  cases i <;> simp [isBranchWord, hFields.1, Instr.bundleRow]

/-- The slot decode writes for a word of `i` holds the bundle and the code of `i` (R276). -/
theorem decodedSlot_of_decode {f : IfId} {i : Instr} (h : decode f.instr = .instr i) (regs : RegFile) :
    (decodedSlot regs f).ctrl = i.bundleRow ∧ (decodedSlot regs f).aluctl = i.aluRow := by
  have hCtrl : (decodedSlot regs f).ctrl = i.bundleRow := controlOf_of_decode h
  refine ⟨hCtrl, ?_⟩
  calc (decodedSlot regs f).aluctl
      = aluControl (decodedSlot regs f).ctrl.aluOp (functOf f.instr) (opcodeOf f.instr) := rfl
    _ = i.aluRow := by rw [hCtrl, aluControl_of_decode h]

@[simp] theorem decodedSlot_rt (regs : RegFile) (f : IfId) : (decodedSlot regs f).rt = rtOf f.instr := rfl
@[simp] theorem decodedSlot_rd (regs : RegFile) (f : IfId) : (decodedSlot regs f).rd = rdOf f.instr := rfl

/-- Counting touches the three bins of the histogram alone (R47). -/
theorem drained_counted_eq (s : State) (i : Instr) :
    s.drained.counted i
      = { s.drained with nR := (s.counted i).nR, nI := (s.counted i).nI, nJ := (s.counted i).nJ } := by
  cases i <;> rfl

/-- A slot with the opcode of `i` retires into the bin of `i` (R282). -/
theorem retire_of_decode {w : Word} {i : Instr} (h : decode w = .instr i) {x : MemWb} (hValid : x.valid = true)
    (hOpcode : x.opcode = opcodeOf w) (s : State) :
    retire x ⟨s.nR, s.nI, s.nJ⟩ = ⟨(s.counted i).nR, (s.counted i).nI, (s.counted i).nJ⟩ := by
  have hFields := fields_of_decode h
  cases i <;> simp [retire, hValid, hOpcode, hFields.1, State.counted]

/-! ### An instruction whose ALU result goes to a register -/

/-- The slot writes its ALU result to a register; it accesses no memory and transfers no control (R113). -/
def writesAluResult (c : Ctrl) : Bool :=
  c.regWrite && c.memtoReg == .alu && !c.memRead && !c.memWrite && !c.branch && !c.jump

theorem writesAluResult_iff {c : Ctrl} : writesAluResult c = true ↔
    c.regWrite = true ∧ c.memtoReg = .alu ∧ c.memRead = false ∧ c.memWrite = false ∧ c.branch = false
      ∧ c.jump = false := by
  simp [writesAluResult, and_assoc]

/-- What the ALU answers for a word of `i` whose operands are read from `s` (R88, R277). -/
def aluAnswer (s : State) (i : Instr) (w : Word) : Option AluOut :=
  alu s.cfg.sltMode i.aluRow (regRead s.regs (rsOf w))
    (aluOperandB i.bundleRow.aluSrc (sext32 (immOf w)) (regRead s.regs (rtOf w))) (shamtOf w) s.hi s.lo

/-- Where a word of such an instruction, taken in by a Ready state, ends: `v`, the ALU's answer on the word's
operands, stands in the destination (R170, R272, R277). -/
theorem entered_drainsTo_of_writesAluResult {s : State} {w : Word} {i : Instr} {v : Word} (hReady : s.Ready)
    (hDecode : decode w = .instr i) (hRow : writesAluResult i.bundleRow = true)
    (hAlu : aluAnswer s i w = some (plainOut v)) :
    (s.entered w (s.pc + 4#32) []).DrainsTo { s.drained.counted i with
      regs := regWrite s.regs (destOf i.bundleRow (rtOf w) (rdOf w)) v, pc := s.pc + 4#32 } := by
  obtain ⟨hRun, -, hQueue, -⟩ := hReady
  obtain ⟨hWrite, hSource, hLoad, hStore, hBranch, hJump⟩ := writesAluResult_iff.mp hRow
  have hCtrl := controlOf_of_decode hDecode
  obtain ⟨hSlotCtrl, hCode⟩ := decodedSlot_of_decode (f := ⟨true, w, s.pc + 4#32⟩) hDecode s.regs
  have hMemory := memoryStage_of_no_access (c := s.cfg)
    (m := executedSlot s.cfg (decodedSlot s.regs ⟨true, w, s.pc + 4#32⟩) (plainOut v))
    s.mem s.memAccesses (predOf s []) rfl ((congrArg Ctrl.memRead hSlotCtrl).trans hLoad)
    ((congrArg Ctrl.memWrite hSlotCtrl).trans hStore) ((congrArg Ctrl.branch hSlotCtrl).trans hBranch)
  have hDrains := entered_drainsTo (next := s.pc + 4#32) hRun (by rw [hCode]; exact aluRow_ne_invalid i)
    (by rw [hCode, hCtrl]; exact hAlu) hMemory rfl
  rw [retire_of_decode hDecode rfl rfl] at hDrains
  rw [drained_counted_eq]
  simpa [accessedSlot, executedSlot, hSlotCtrl, hWrite, hSource, hJump, memwbValue, predOf, plainOut, hiAfter,
    loAfter, hQueue] using hDrains

/-- Such an instruction completes and writes `v` to `r`, where every word that carries its operands names `r` as
its destination and makes the ALU answer `v`. -/
theorem writesRegister_of_writesAluResult {s : State} {i : Instr} {r : RegIdx} {v : Word} (hReady : s.Ready)
    (hRow : writesAluResult i.bundleRow = true)
    (hFields : ∀ w, FieldsAre w i →
      destOf i.bundleRow (rtOf w) (rdOf w) = r ∧ aluAnswer s i w = some (plainOut v)) :
    WritesRegister i s r v := by
  have hDecode := decode_wordAtPc i s (decodeEncode i)
  obtain ⟨hDest, hAlu⟩ := hFields (wordAtPc i s) (fieldsAre_wordAtPc i s)
  obtain ⟨-, -, -, -, hBranch, -⟩ := writesAluResult_iff.mp hRow
  refine ⟨_, ?_, rfl, hDest ▸ entered_drainsTo_of_writesAluResult hReady hDecode hRow hAlu⟩
  simp [exec_of_ready hReady, isBranchWord_of_decode hDecode, hBranch]

end Sys2Proof.Machine

namespace Sys2Proof

open Sys2Proof.Machine

/-- Settles O2: each word's field cuts are those of the instruction, operand by operand. -/
theorem writtenWordsDecode : Obligations.WrittenWordsDecode := by
  refine ⟨?add, ?mult, ?addi, ?sw, ?beq, ?jal, ?jr⟩
  all_goals exact decode_of_fieldsAre (by decide)

/-- Settles O16: the fields of each word are the operands, and what the ALU answers for its code is the stated
result. -/
theorem registerAluComplete : Obligations.RegisterAluComplete := by
  intro s rd rs rt hReady
  refine ⟨?add, ?addu, ?sub, ?subu, ?and, ?or, ?nor⟩
  all_goals
    refine writesRegister_of_writesAluResult hReady rfl fun w hFields => ?_
    obtain ⟨-, -, rfl, rfl, rfl⟩ := hFields
    exact ⟨rfl, rfl⟩

/-- Settles O17: the ALU's comparison under the configuration's SLT_MODE is the stated one, case by case. -/
theorem compareComplete : Obligations.CompareComplete := by
  intro s rd rs rt hReady
  refine ⟨?slt, ?sltu⟩
  all_goals
    refine writesRegister_of_writesAluResult hReady rfl fun w hFields => ?_
    obtain ⟨-, -, rfl, rfl, rfl⟩ := hFields
    exact ⟨rfl, rfl⟩

/-- Settles O18: the ALU shifts operand B, the value of `rt`, by the shamt field the slot carries. -/
theorem shiftComplete : Obligations.ShiftComplete := by
  intro s rd rt shamt hReady
  refine ⟨?sll, ?srl⟩
  all_goals
    refine writesRegister_of_writesAluResult hReady rfl fun w hFields => ?_
    obtain ⟨-, -, rfl, rfl, rfl⟩ := hFields
    exact ⟨rfl, rfl⟩

/-- Settles O19: operand B is the sign-extended immediate, and the destination is the rt field. -/
theorem immediateComplete : Obligations.ImmediateComplete := by
  intro s rt rs imm hReady
  refine ⟨?addi, ?addiu⟩
  all_goals
    refine writesRegister_of_writesAluResult hReady rfl fun w hFields => ?_
    obtain ⟨-, rfl, rfl, rfl⟩ := hFields
    exact ⟨rfl, rfl⟩

end Sys2Proof
end

section
/-! Proofs of the statements of 43_hilo.md: `mult` completes and writes HI and LO (R200), `mfhi` and `mflo` move
them to a register (R202, R203), and only a `mult` in execute that no flush squashes changes them (R201). -/

namespace Sys2Proof.Machine

/-! ### The pending HI/LO pair, from the ALU to the commit -/

/-- The two halves of the exact signed product, for HI and for LO (R151). -/
def productHalves (a b : Word) : Word × Word :=
  ((product a b).extractLsb' 32 32, (product a b).extractLsb' 0 32)

/-- `MULT` is the one operation that returns a HI/LO pair (R140, R151). -/
theorem alu_hilo {mode : SltMode} {ctl : AluCtl} {a b : Word} {sh : BitVec 5} {hi lo : Word} {out : AluOut}
    (h : alu mode ctl a b sh hi lo = some out) :
    out.hilo = if ctl = .mult then some (productHalves a b) else none := by
  cases ctl
  case invalid => cases h
  all_goals
    obtain rfl := Option.some.inj h
    rfl

/-- A pair is pending after execute exactly for a valid `MULT` slot (R201, R277). -/
theorem executeStage_hilo {c : Config} {e : IdEx} {hi lo : Word} {x : ExMem} {hl : Option (Word × Word)}
    (h : executeStage c e hi lo = .ok (x, hl)) :
    hl = if e.valid = true ∧ e.aluctl = .mult then
        some (productHalves e.rsVal (aluOperandB e.ctrl.aluSrc e.imm e.rtVal))
      else none := by
  rcases executeStage_ok h with ⟨hBubble, _, rfl⟩ | ⟨hValid, out, hAlu, _, rfl⟩
  · simp [hBubble]
  · simp [hValid, alu_hilo hAlu]

/-- A flush cancels the pending pair (R201, R342). -/
theorem afterFlush_hilo (c : Config) (p : Phases) :
    (afterFlush c p).hilo = if p.memory.redirect = none then p.hilo else none := by
  cases h : p.memory.redirect <;> simp [afterFlush, h]

/-- The commit takes a pending pair, and leaves HI and LO where none is pending (R283). -/
theorem hiLoAfter_eq_getD (hi lo : Word) (hl : Option (Word × Word)) :
    (hiAfter hi hl, loAfter lo hl) = hl.getD (hi, lo) := by
  cases hl <;> rfl

/-- Operand B as a choice between the immediate and `rt_val` (R88, R141). -/
theorem aluOperandB_eq_ite (src : AluSrc) (imm rtVal : Word) :
    aluOperandB src imm rtVal = if src = .imm then imm else rtVal := by
  cases src <;> rfl

/-- HI and LO after a completed cycle: the product of a valid `MULT` slot's operands, unless a redirect squashes
the slot (R201). -/
theorem completed_hiLo {s t : State} (h : Completed s t) :
    (t.hi, t.lo) =
      if s.idex.cur.valid = true ∧ s.idex.cur.aluctl = .mult ∧ redirectOf s = none then
        productHalves s.idex.cur.rsVal
          (aluOperandB s.idex.cur.ctrl.aluSrc s.idex.cur.imm s.idex.cur.rtVal)
      else (s.hi, s.lo) := by
  obtain ⟨_, p, hPhases, rfl⟩ := completed_commit h
  obtain ⟨_, _, _, _, hExecute, _, _⟩ := phases_ok.mp hPhases
  rw [redirectOf_of_ok hPhases, terminate_hi, terminate_lo, commit_hi, commit_lo, hiLoAfter_eq_getD,
    afterFlush_hilo, executeStage_hilo hExecute]
  by_cases hRedirect : p.memory.redirect = none
  · simp only [hRedirect, if_true, and_true]
    split <;> rfl
  · simp [hRedirect]

/-! ### A `mult` alone -/

/-- Where a word of `mult`, taken in by a Ready state, ends: the ALU's pair stands in HI and LO, and no later
stage uses its result 0 (R170, R200). -/
theorem entered_mult_drainsTo {s : State} {w : Word} {rs rt : RegIdx} (hReady : s.Ready)
    (hDecode : decode w = .instr (.mult rs rt)) :
    (s.entered w (s.pc + 4#32) []).DrainsTo { s.drained.counted (.mult rs rt) with
      hi := (productHalves (regRead s.regs rs) (regRead s.regs rt)).1
      lo := (productHalves (regRead s.regs rs) (regRead s.regs rt)).2
      pc := s.pc + 4#32 } := by
  obtain ⟨hRun, -, hQueue, -⟩ := hReady
  obtain ⟨-, -, rfl, rfl⟩ := fields_of_decode hDecode
  obtain ⟨hSlotCtrl, hCode⟩ := decodedSlot_of_decode (f := ⟨true, w, s.pc + 4#32⟩) hDecode s.regs
  have hMemory := memoryStage_of_no_access (c := s.cfg)
    (m := executedSlot s.cfg (decodedSlot s.regs ⟨true, w, s.pc + 4#32⟩)
      ⟨0#32, zeroOfMult, some (productHalves (regRead s.regs (rsOf w)) (regRead s.regs (rtOf w)))⟩)
    s.mem s.memAccesses (predOf s []) rfl (congrArg Ctrl.memRead hSlotCtrl) (congrArg Ctrl.memWrite hSlotCtrl)
    (congrArg Ctrl.branch hSlotCtrl)
  have hDrains := entered_drainsTo (next := s.pc + 4#32) hRun (by rw [hCode]; exact aluRow_ne_invalid _)
    (by rw [hCode, controlOf_of_decode hDecode]; rfl) hMemory rfl
  rw [retire_of_decode hDecode rfl rfl] at hDrains
  rw [drained_counted_eq]
  simpa [accessedSlot, executedSlot, hSlotCtrl, Instr.bundleRow, predOf, hiAfter, loAfter, hQueue] using hDrains

end Sys2Proof.Machine

namespace Sys2Proof

open Sys2Proof.Machine

/-- Settles O34: the statement's operand B and product halves are those of `completed_hiLo`, written out. -/
theorem hiLoWrittenByMult : Obligations.HiLoWrittenByMult := by
  intro s t hCompleted
  rw [← aluOperandB_eq_ite]
  exact completed_hiLo hCompleted

/-- Settles O20: fetch goes on to the next word, and the word taken in drains with the product in HI and LO. -/
theorem multCompletes : Obligations.MultCompletes := by
  intro s rs rt hReady
  have hDecode := decode_wordAtPc (.mult rs rt) s (decodeEncode _)
  refine ⟨_, ?_, rfl, entered_mult_drainsTo hReady hDecode⟩
  simp [exec_of_ready hReady, isBranchWord_of_decode hDecode, Instr.bundleRow]

/-- Settles O21: for the codes `MFHI` and `MFLO` the ALU answers HI and LO, and the destination is the rd field. -/
theorem moveFromComplete : Obligations.MoveFromComplete := by
  intro s rd hReady
  refine ⟨?mfhi, ?mflo⟩
  all_goals
    refine writesRegister_of_writesAluResult hReady rfl fun w hFields => ?_
    obtain ⟨-, -, rfl⟩ := hFields
    exact ⟨rfl, rfl⟩

end Sys2Proof
end

section
/-! Proofs of the statements of 44_load_store.md: `lw` and `sw` complete on an aligned address in range (R210 to
R214), and only a store in the memory stage changes memory (R213, R280). -/

namespace Sys2Proof.Machine

/-! ### A load or a store alone -/

/-- A slot that accesses memory at an address that passes its checks, and transfers no control, is handed on with
its access made (R211, R213, R279). -/
theorem memoryStage_of_access {c : Config} {m : ExMem} (mem : Memory) (n : Nat) (pred : PredState)
    (hValid : m.valid = true) (hRange : inRange c m.aluResult = true) (hAligned : aligned m.aluResult = true)
    (hBranch : m.ctrl.branch = false) (hJump : m.ctrl.jump = false) :
    memoryStage c m mem n pred
      = .ok ⟨accessedSlot m (loadedData m mem), storedMem m mem, n + accessCount m, pred, none⟩ := by
  have hCheck : accessCheck c m = .ok () := accessCheck_of_ok fun _ => ⟨hRange, hAligned⟩
  have hResolve : resolveBranch c.predMode m pred = .ok (pred, none) := by simp [resolveBranch, hBranch]
  rw [memoryStage_of_valid mem n hValid hCheck hResolve]
  simp [hJump]

/-- The ALU adds the displacement to the base for a word of `lw` or `sw` (R214). -/
theorem aluAnswer_of_access {rt rs : RegIdx} {imm : BitVec 16} {i : Instr} {w : Word}
    (hi : i ∈ [Instr.lw rt rs imm, Instr.sw rt rs imm]) (hFields : FieldsAre w i) (s : State) :
    aluAnswer s i w = some (plainOut (effectiveAddress s rs imm)) := by
  rcases List.mem_pair.mp hi with rfl | rfl
  all_goals
    obtain ⟨-, rfl, rfl, rfl⟩ := hFields
    rfl

@[simp] theorem decodedSlot_rtVal (regs : RegFile) (f : IfId) :
    (decodedSlot regs f).rtVal = regRead regs (rtOf f.instr) := rfl

/-- `s` drained after the load or the store `i` at the address `ea`: the row's memory bits tell which of the two
accesses is made, and `rt` is what a load writes and what a store takes its data from (R210, R212). -/
def State.accessed (s : State) (i : Instr) (rt : RegIdx) (ea : Word) : State :=
  { s.drained.counted i with
    regs := if i.bundleRow.memRead then regWrite s.regs rt (wordRead s.mem ea) else s.regs
    mem := if i.bundleRow.memWrite then wordWrite s.mem ea (regRead s.regs rt) else s.mem
    memAccesses := s.memAccesses + 1
    pc := s.pc + 4#32 }

/-- Where a word of `lw` or `sw`, taken in by a Ready state, ends: the ALU's sum is the address of the access, which
passes its checks (R211, R213, R214). -/
theorem entered_access_drainsTo {s : State} {w : Word} {rt rs : RegIdx} {imm : BitVec 16} {i : Instr}
    (hReady : s.Ready) (hi : i ∈ [Instr.lw rt rs imm, Instr.sw rt rs imm]) (hDecode : decode w = .instr i)
    (hRange : inRange s.cfg (effectiveAddress s rs imm) = true)
    (hAligned : aligned (effectiveAddress s rs imm) = true) :
    (s.entered w (s.pc + 4#32) []).DrainsTo (s.accessed i rt (effectiveAddress s rs imm)) := by
  obtain ⟨hRun, -, hQueue, -⟩ := hReady
  have hFields := fields_of_decode hDecode
  have hAlu := aluAnswer_of_access hi hFields s
  have hCtrl := controlOf_of_decode hDecode
  obtain ⟨hSlotCtrl, hCode⟩ := decodedSlot_of_decode (f := ⟨true, w, s.pc + 4#32⟩) hDecode s.regs
  rcases List.mem_pair.mp hi with rfl | rfl
  all_goals
    have hMemory := memoryStage_of_access (c := s.cfg)
      (m := executedSlot s.cfg (decodedSlot s.regs ⟨true, w, s.pc + 4#32⟩)
        (plainOut (effectiveAddress s rs imm)))
      s.mem s.memAccesses (predOf s []) rfl hRange hAligned (congrArg Ctrl.branch hSlotCtrl)
      (congrArg Ctrl.jump hSlotCtrl)
    have hDrains := entered_drainsTo (next := s.pc + 4#32) hRun (by rw [hCode]; exact aluRow_ne_invalid _)
      (by rw [hCode, hCtrl]; exact hAlu) hMemory rfl
    rw [retire_of_decode hDecode rfl rfl] at hDrains
    obtain ⟨-, -, rfl, -⟩ := hFields
    rw [State.accessed, drained_counted_eq]
    simpa [accessedSlot, executedSlot, hSlotCtrl, Instr.bundleRow, destOf, memwbValue, loadedData, storedMem,
      accessCount, predOf, plainOut, hiAfter, loAfter, hQueue] using hDrains

/-- A `lw` or `sw` completes at an aligned address in range (R210, R212, R214). -/
theorem access_completes {s : State} {rt rs : RegIdx} {imm : BitVec 16} {i : Instr}
    (hReady : s.Ready) (hi : i ∈ [Instr.lw rt rs imm, Instr.sw rt rs imm])
    (hRange : inRange s.cfg (effectiveAddress s rs imm) = true)
    (hAligned : aligned (effectiveAddress s rs imm) = true) :
    ∃ t, exec i s = .next t ∧ t = s.entered (wordAtPc i s) (s.pc + 4#32) []
      ∧ t.DrainsTo (s.accessed i rt (effectiveAddress s rs imm)) := by
  have hDecode := decode_wordAtPc i s (decodeEncode i)
  have hBranch := isBranchWord_of_accessOpcode (wordAtPc_access hi s).1
  exact ⟨_, by simp [exec_of_ready hReady, hBranch], rfl,
    entered_access_drainsTo hReady hi hDecode hRange hAligned⟩

/-! ### What a cycle can change in memory -/

/-- A byte that a memory slot changes is one of the four at a storing slot's address (R63, R213). -/
theorem byteRead_storedMem_ne {x : ExMem} {m : Memory} {a : Nat}
    (h : byteRead (storedMem x m) a ≠ byteRead m a) :
    x.ctrl.memWrite = true ∧ x.aluResult.toNat ≤ a ∧ a < x.aluResult.toNat + 4 := by
  unfold storedMem at h
  split at h
  · next hStore =>
    have hInside : ¬ (a < x.aluResult.toNat ∨ x.aluResult.toNat + 4 ≤ a) := fun hOutside =>
      h (byteRead_wordWrite_outside m x.aluResult x.storeData hOutside)
    exact ⟨hStore, by omega, by omega⟩
  · exact absurd rfl h

/-- A byte that the memory stage changes is one of the four at the address of a valid storing slot, which has
passed its checks (R64, R65, R213). -/
theorem memoryStage_byteRead_ne {c : Config} {x : ExMem} {m : Memory} {n : Nat} {pred : PredState} {o : MemOut}
    {a : Nat} (hStage : memoryStage c x m n pred = .ok o) (h : byteRead o.mem a ≠ byteRead m a) :
    x.valid = true ∧ x.ctrl.memWrite = true ∧ x.aluResult.toNat ≤ a ∧ a < x.aluResult.toNat + 4
      ∧ x.aluResult.toNat + 4 ≤ c.memSize ∧ x.aluResult.toNat % 4 = 0 := by
  rcases memoryStage_ok hStage with ⟨_, rfl⟩ | ⟨hValid, hCheck, _, hMem, _⟩
  · exact absurd rfl h
  · obtain ⟨hStore, hFirst, hLast⟩ := byteRead_storedMem_ne (hMem ▸ h)
    obtain ⟨hRange, hAligned⟩ := accessCheck_ok hCheck (.inr hStore)
    exact ⟨hValid, hStore, hFirst, hLast, of_decide_eq_true hRange, aligned_iff.mp hAligned⟩

end Sys2Proof.Machine

namespace Sys2Proof

open Sys2Proof.Machine

/-- Settles O22: the load's row reads memory and does not write it. -/
theorem loadCompletes : Obligations.LoadCompletes := by
  intro s rt rs imm hReady hRange hAligned
  exact access_completes (rt := rt) (i := .lw rt rs imm) hReady (by simp) hRange hAligned

/-- Settles O23: the memory reached is the one `wordWrite` makes of the old one. -/
theorem storeCompletes : Obligations.StoreCompletes := by
  intro s rt rs imm hReady hRange hAligned
  obtain ⟨t, hExec, hEntered, hDrains⟩ :=
    access_completes (rt := rt) (i := .sw rt rs imm) hReady (by simp) hRange hAligned
  exact ⟨t, wordWrite s.mem (effectiveAddress s rs imm) (regRead s.regs rt), hExec, hEntered, hDrains,
    fun hm => ⟨wordRead_wordWrite _ _ hm, wordWrite_wf _ _ hm⟩,
    fun _ => byteRead_wordWrite_outside s.mem _ _⟩

/-- Settles O32: a fatal error leaves memory alone, and a commit takes it from the memory stage. -/
theorem memoryChangesOnlyByStore : Obligations.MemoryChangesOnlyByStore := by
  intro s t a hStep hChanged
  obtain ⟨_, rfl⟩ := step_next hStep
  rcases clock_cases s (fetchWord s) with ⟨e, _, hFail⟩ | ⟨p, hPhases, hCommit⟩
  · exact absurd (by simp [hFail]) hChanged
  · obtain ⟨_, _, _, _, _, hMemory, _⟩ := phases_ok.mp hPhases
    rw [hCommit, terminate_mem, commit_mem] at hChanged
    exact memoryStage_byteRead_ne hMemory hChanged

end Sys2Proof
end

section
/-! Proofs of the statements of 45_control_transfer.md: the branches and jumps complete (R225 to R232, R240), only
a resolved branch or a jump redirects (R241), and only a `jr` takes the pc to SENTINEL (R243). -/

namespace Sys2Proof.Machine

/-! ### A branch alone -/

@[simp] theorem decodedSlot_opcode (regs : RegFile) (f : IfId) :
    (decodedSlot regs f).opcode = opcodeOf f.instr := rfl
@[simp] theorem decodedSlot_imm (regs : RegFile) (f : IfId) :
    (decodedSlot regs f).imm = sext32 (immOf f.instr) := rfl
@[simp] theorem decodedSlot_target (regs : RegFile) (f : IfId) :
    (decodedSlot regs f).target = targetOf f.instr := rfl
@[simp] theorem decodedSlot_pc4 (regs : RegFile) (f : IfId) : (decodedSlot regs f).pc4 = f.pc4 := rfl

/-- A branch accesses no memory, does not jump and writes no register (R113). -/
theorem bundleRow_of_branch {i : Instr} (h : i.bundleRow.branch = true) :
    i.bundleRow.memRead = false ∧ i.bundleRow.memWrite = false ∧ i.bundleRow.jump = false
      ∧ i.bundleRow.regWrite = false := by
  cases i with
  | beq | bne => simp [Instr.bundleRow]
  | _ => cases h

/-- A branch slot with one prediction `p` outstanding is handed on: a hit or a miss is counted, the history goes
towards the outcome, and a miss redirects (R338, R340, R341). -/
theorem memoryStage_of_branch {c : Config} {m : ExMem} (mem : Memory) (n : Nat) {pred : PredState} {p : Bool}
    (hValid : m.valid = true) (hRead : m.ctrl.memRead = false) (hWrite : m.ctrl.memWrite = false)
    (hBranch : m.ctrl.branch = true) (hJump : m.ctrl.jump = false) (hQueue : pred.pq = [p]) :
    memoryStage c m mem n pred = .ok
      { memwb := accessedSlot m 0#32
        mem := mem
        memAccesses := n
        pred :=
          { h1 := updateH1 c.predMode pred.h1 m.zero
            h2 := updateH2 c.predMode pred.h2 m.zero
            pq := []
            hits := pred.hits + if p = m.zero then 1 else 0
            misses := pred.misses + if p = m.zero then 0 else 1 }
        redirect := if p = m.zero then none else some (correctNext m) } := by
  have hCheck : accessCheck c m = .ok () := by simp [accessCheck, hRead, hWrite]
  have hResolve : resolveBranch c.predMode m pred = validate c.predMode pred m.zero (correctNext m) m.pc4 := by
    simp [resolveBranch, hBranch]
  by_cases hHit : p = m.zero
  all_goals
    simp only [validate, hQueue, beq_iff_eq, hHit, if_true, if_false] at hResolve
    rw [memoryStage_of_valid mem n hValid hCheck hResolve]
    simp [hHit, hRead, hWrite, hJump, loadedData, storedMem, accessCount]

/-- Where a branch's word, taken in by a Ready state, ends: fetch has gone where the prediction says, and a miss
corrects it, so that the pc is where the ALU's flag says (R225, R227, R341). -/
theorem entered_branch_drainsTo {s : State} {w difference : Word} {i : Instr} {taken p : Bool} (hReady : s.Ready)
    (hDecode : decode w = .instr i) (hRow : i.bundleRow.branch = true)
    (hAlu : aluAnswer s i w = some ⟨difference, taken, none⟩) :
    (s.entered w (if p then branchTarget (s.pc + 4#32) (sext32 (immOf w)) else s.pc + 4#32) [p]).DrainsTo
      { s.drained.counted i with
        pc := if taken then branchTarget (s.pc + 4#32) (sext32 (immOf w)) else s.pc + 4#32
        h1 := updateH1 s.cfg.predMode s.h1 taken
        h2 := updateH2 s.cfg.predMode s.h2 taken
        hits := s.hits + if p = taken then 1 else 0
        misses := s.misses + if p = taken then 0 else 1 } := by
  obtain ⟨hRun, -, hQueue, -⟩ := hReady
  obtain ⟨hLoad, hStore, hJump, hWrite⟩ := bundleRow_of_branch hRow
  have hCtrl := controlOf_of_decode hDecode
  obtain ⟨hSlotCtrl, hCode⟩ := decodedSlot_of_decode (f := ⟨true, w, s.pc + 4#32⟩) hDecode s.regs
  have hMemory := memoryStage_of_branch (c := s.cfg)
    (m := executedSlot s.cfg (decodedSlot s.regs ⟨true, w, s.pc + 4#32⟩) ⟨difference, taken, none⟩)
    s.mem s.memAccesses (pred := predOf s [p]) rfl ((congrArg Ctrl.memRead hSlotCtrl).trans hLoad)
    ((congrArg Ctrl.memWrite hSlotCtrl).trans hStore) ((congrArg Ctrl.branch hSlotCtrl).trans hRow)
    ((congrArg Ctrl.jump hSlotCtrl).trans hJump) rfl
  have hDrains := entered_drainsTo (pq := [p])
    (next := if p then branchTarget (s.pc + 4#32) (sext32 (immOf w)) else s.pc + 4#32) hRun
    (by rw [hCode]; exact aluRow_ne_invalid i) (by rw [hCode, hCtrl]; exact hAlu) hMemory rfl
  rw [retire_of_decode hDecode rfl rfl] at hDrains
  rw [drained_counted_eq]
  by_cases hHit : p = taken
  · simpa [accessedSlot, executedSlot, hSlotCtrl, hWrite, predOf, hiAfter, loAfter, hQueue, hHit] using hDrains
  · simpa [accessedSlot, executedSlot, hSlotCtrl, hWrite, predOf, hiAfter, loAfter, hQueue, hHit, correctNext]
      using hDrains

/-- A branch completes, where every word that carries its operands has the offset `imm` and makes the ALU's flag
`taken`. -/
theorem branches_of_aluAnswer {s : State} {i : Instr} {imm : BitVec 16} {taken : Bool} (hReady : s.Ready)
    (hRow : i.bundleRow.branch = true)
    (hFields : ∀ w, FieldsAre w i →
      immOf w = imm ∧ ∃ difference, aluAnswer s i w = some ⟨difference, taken, none⟩) :
    Branches i s imm taken := by
  have hDecode := decode_wordAtPc i s (decodeEncode i)
  obtain ⟨rfl, difference, hAlu⟩ := hFields (wordAtPc i s) (fieldsAre_wordAtPc i s)
  refine ⟨_, ?_, rfl, entered_branch_drainsTo hReady hDecode hRow hAlu⟩
  simp [exec_of_ready hReady, isBranchWord_of_decode hDecode, hRow]

/-! ### A jump alone -/

/-- A jump accesses no memory and is no branch; what a jump writes, it writes to register 31 from the link value
(R113). -/
theorem bundleRow_of_jump {i : Instr} (h : i.bundleRow.jump = true) :
    i.bundleRow.memRead = false ∧ i.bundleRow.memWrite = false ∧ i.bundleRow.branch = false
      ∧ (i.bundleRow.regWrite = true → i.bundleRow.memtoReg = .link ∧ i.bundleRow.regDst = .ra) := by
  cases i with
  | j | jal | jr => simp [Instr.bundleRow]
  | _ => cases h

/-- The link value of a jump at `pc` is JAL_LINK_OFFSET above it (R232). -/
theorem linkValue_add_four (c : Config) (pc : Word) : linkValue c (pc + 4#32) = pc + c.linkOffset.toWord := by
  rw [linkValue]
  bv_omega

/-- `s` drained after the jump `i` to `target`: the pc there, and the link in register 31 where `i` writes one
(R231, R241). -/
def State.jumped (s : State) (i : Instr) (target : Word) : State :=
  { s.drained.counted i with
    regs := if i.bundleRow.regWrite then regWrite s.regs 31#5 (s.pc + s.cfg.linkOffset.toWord) else s.regs
    pc := target }

/-- Where a jump's word, taken in by a Ready state, ends: `v` is what the ALU answers, the target of a jump of
opcode 0 (R225, R241). -/
theorem entered_jump_drainsTo {s : State} {w v : Word} {i : Instr} (hReady : s.Ready)
    (hDecode : decode w = .instr i) (hRow : i.bundleRow.jump = true)
    (hAlu : aluAnswer s i w = some (plainOut v)) :
    (s.entered w (s.pc + 4#32) []).DrainsTo
      (s.jumped i (if opcodeOf w = 0x00#6 then v else jumpTarget (s.pc + 4#32) (targetOf w))) := by
  obtain ⟨hRun, -, hQueue, -⟩ := hReady
  obtain ⟨hLoad, hStore, hBranch, hLink⟩ := bundleRow_of_jump hRow
  have hCtrl := controlOf_of_decode hDecode
  obtain ⟨hSlotCtrl, hCode⟩ := decodedSlot_of_decode (f := ⟨true, w, s.pc + 4#32⟩) hDecode s.regs
  have hMemory := memoryStage_of_no_access (c := s.cfg)
    (m := executedSlot s.cfg (decodedSlot s.regs ⟨true, w, s.pc + 4#32⟩) (plainOut v))
    s.mem s.memAccesses (predOf s []) rfl ((congrArg Ctrl.memRead hSlotCtrl).trans hLoad)
    ((congrArg Ctrl.memWrite hSlotCtrl).trans hStore) ((congrArg Ctrl.branch hSlotCtrl).trans hBranch)
  have hDrains := entered_drainsTo (next := s.pc + 4#32) hRun (by rw [hCode]; exact aluRow_ne_invalid i)
    (by rw [hCode, hCtrl]; exact hAlu) hMemory rfl
  rw [retire_of_decode hDecode rfl rfl] at hDrains
  rw [State.jumped, drained_counted_eq]
  by_cases hWrite : i.bundleRow.regWrite = true
  · obtain ⟨hSource, hDest⟩ := hLink hWrite
    simpa [accessedSlot, executedSlot, hSlotCtrl, hRow, hWrite, hSource, hDest, destOf, memwbValue,
      linkValue_add_four, jumpDestination, predOf, plainOut, hiAfter, loAfter, hQueue] using hDrains
  · simpa [accessedSlot, executedSlot, hSlotCtrl, hRow, hWrite, jumpDestination, predOf, plainOut, hiAfter,
      loAfter, hQueue] using hDrains

/-- A jump completes at `target`, where every word that carries its operands goes there. -/
theorem jump_completes {s : State} {i : Instr} {target : Word} (hReady : s.Ready)
    (hRow : i.bundleRow.jump = true)
    (hFields : ∀ w, FieldsAre w i → ∃ v, aluAnswer s i w = some (plainOut v)
      ∧ (if opcodeOf w = 0x00#6 then v else jumpTarget (s.pc + 4#32) (targetOf w)) = target) :
    ∃ t, exec i s = .next t ∧ t = s.entered (wordAtPc i s) (s.pc + 4#32) []
      ∧ t.DrainsTo (s.jumped i target) := by
  have hDecode := decode_wordAtPc i s (decodeEncode i)
  obtain ⟨v, hAlu, rfl⟩ := hFields (wordAtPc i s) (fieldsAre_wordAtPc i s)
  obtain ⟨-, -, hBranch, -⟩ := bundleRow_of_jump hRow
  refine ⟨_, ?_, rfl, entered_jump_drainsTo hReady hDecode hRow hAlu⟩
  simp [exec_of_ready hReady, isBranchWord_of_decode hDecode, hBranch]

/-! ### Where one cycle takes the pc -/

/-- Without a resolved branch the memory stage leaves the predictor alone, and redirects exactly as a valid jump
(R241, R349). -/
theorem memoryStage_of_unresolved {c : Config} {m : ExMem} {mem : Memory} {n : Nat} {pred : PredState}
    {o : MemOut} (h : memoryStage c m mem n pred = .ok o) (hBranch : (m.valid && m.ctrl.branch) = false) :
    o.pred = pred
      ∧ o.redirect = if m.valid = true ∧ m.ctrl.jump = true then some (jumpDestination m) else none := by
  rcases memoryStage_ok h with ⟨hBubble, rfl⟩ | ⟨hValid, _, _, _, _, miss, hResolve, hRedirect⟩
  · simp [hBubble]
  · have hNoBranch : m.ctrl.branch = false := by simpa [hValid] using hBranch
    simp only [resolveBranch, hNoBranch, Bool.false_eq_true, if_false, Except.ok.injEq, Prod.mk.injEq] at hResolve
    obtain ⟨hPred, rfl⟩ := hResolve
    exact ⟨hPred.symm, by simp [hRedirect, hValid]⟩

/-- A redirect is a jump's or a missed branch's, to the correct next address (R241, R341). -/
theorem memoryStage_redirect_cases {c : Config} {m : ExMem} {mem : Memory} {n : Nat} {pred : PredState}
    {o : MemOut} {target : Word} (h : memoryStage c m mem n pred = .ok o) (hTarget : o.redirect = some target) :
    (m.valid = true ∧ m.ctrl.jump = true ∧ target = jumpDestination m) ∨ target = correctNext m := by
  rcases memoryStage_ok h with ⟨_, rfl⟩ | ⟨hValid, _, _, _, _, miss, hResolve, hRedirect⟩
  · cases hTarget
  rw [hRedirect] at hTarget
  split at hTarget
  · next hJump => exact .inl ⟨hValid, hJump, (Option.some.inj hTarget).symm⟩
  · subst hTarget
    unfold resolveBranch at hResolve
    split at hResolve
    · obtain ⟨_, _, _, _, _, _, ⟨_, _, _, hHit⟩ | ⟨_, _, _, hMiss⟩⟩ := validate_ok hResolve
      · cases hHit
      · exact .inr (Option.some.inj hMiss)
    · cases hResolve

/-- The correct next address of a branch is aligned, whether it is taken or not (R226, R227). -/
theorem aligned_correctNext {m : ExMem} (h : m.Aligned) : aligned (correctNext m) = true := by
  obtain ⟨hPc4, hBranchTarget, -⟩ := h
  unfold correctNext
  split
  · exact hBranchTarget
  · exact hPc4

/-- A redirect goes to an aligned address, or to the ALU result of a jump of opcode 0 (R226, R241). -/
theorem memoryStage_redirect_aligned {c : Config} {m : ExMem} {mem : Memory} {n : Nat} {pred : PredState}
    {o : MemOut} {target : Word} (h : memoryStage c m mem n pred = .ok o) (hTarget : o.redirect = some target)
    (hAligned : m.Aligned) :
    aligned target = true
      ∨ m.valid = true ∧ m.ctrl.jump = true ∧ m.opcode = 0x00#6 ∧ m.aluResult = target := by
  rcases memoryStage_redirect_cases h hTarget with ⟨hValid, hJump, rfl⟩ | rfl
  · obtain ⟨-, -, hJumpTarget⟩ := hAligned
    by_cases hOpcode : m.opcode = 0x00#6
    · exact .inr ⟨hValid, hJump, hOpcode, by rw [jumpDestination, if_pos hOpcode]⟩
    · exact .inl (by rw [jumpDestination, if_neg hOpcode]; exact hJumpTarget)
  · exact .inl (aligned_correctNext hAligned)

/-- Fetch leaves the pc where it is, or proposes an aligned one (R226, R273, R274, R306). -/
theorem fetchStage_next_aligned {s : State} {stall : Bool} {w : Word} {o : FetchOut}
    (h : fetchStage s stall w = .ok o) : o.next = s.pc ∨ aligned o.next = true := by
  rcases fetchStage_ok h with
    ⟨_, rfl⟩ | ⟨_, _, rfl⟩ | ⟨_, _, _, hPc, _, rfl⟩ | ⟨_, _, _, hPc, _, rfl⟩
  · exact .inl rfl
  · exact .inl rfl
  · have hPc4 := aligned_add_four hPc
    right
    dsimp only
    split
    · exact aligned_branchTarget hPc4 _
    · exact hPc4
  · exact .inr (aligned_add_four hPc)

/-- Where a completed cycle takes the pc: nowhere, to an aligned address, or to the ALU result of a valid jump of
opcode 0 (R226, R243). -/
theorem completed_pc_cases {s t : State} (h : Completed s t) (hAligned : s.exmem.cur.Aligned) :
    t.pc = s.pc ∨ aligned t.pc = true
      ∨ s.exmem.cur.valid = true ∧ s.exmem.cur.ctrl.jump = true ∧ s.exmem.cur.opcode = 0x00#6
        ∧ s.exmem.cur.aluResult = t.pc := by
  obtain ⟨_, p, hPhases, rfl⟩ := completed_commit h
  obtain ⟨_, _, hFetch, _, _, hMemory, _⟩ := phases_ok.mp hPhases
  rw [terminate_pc, commit_pc, afterFlush]
  split
  · next target hTarget => exact .inr (memoryStage_redirect_aligned hMemory hTarget hAligned)
  · exact (fetchStage_next_aligned hFetch).imp_right .inl

/-- SENTINEL of an admitted configuration is no multiple of 4 (R8, R455). -/
theorem aligned_sentinel_of_wellFormed {c : Config} (h : c.wellFormed = true) : aligned c.sentinel = false := by
  simp only [Config.wellFormed, Bool.and_eq_true, bne_iff_ne] at h
  simpa [aligned] using h.2

end Sys2Proof.Machine

namespace Sys2Proof

open Sys2Proof.Machine

/-- Settles O25: the ALU's flag for each word is the branch condition on its two operands. -/
theorem branchesComplete : Obligations.BranchesComplete := by
  intro s rs rt imm hReady
  refine ⟨?beq, ?bne⟩
  case beq =>
    refine branches_of_aluAnswer hReady rfl fun w hFields => ?_
    obtain ⟨-, rfl, rfl, rfl⟩ := hFields
    exact ⟨rfl, _, rfl⟩
  case bne =>
    refine branches_of_aluAnswer hReady rfl fun w hFields => ?_
    obtain ⟨-, rfl, rfl, rfl⟩ := hFields
    rw [decide_not]
    exact ⟨rfl, _, rfl⟩

/-- Settles O26: the opcode of `j` and of `jal` is not 0, so the target is the jump target of the word. -/
theorem jumpsComplete : Obligations.JumpsComplete := by
  intro s target hReady
  refine ⟨?j, ?jal⟩
  all_goals
    refine jump_completes hReady rfl fun w hFields => ?_
    obtain ⟨hOpcode, rfl⟩ := hFields
    exact ⟨_, rfl, by rw [hOpcode]; rfl⟩

/-- Settles O27: the opcode of `jr` is 0, and the ALU passes the value of `rs` through as the target. -/
theorem jumpRegisterCompletes : Obligations.JumpRegisterCompletes := by
  intro s rs hReady
  refine jump_completes hReady rfl fun w hFields => ?_
  obtain ⟨hOpcode, -, rfl⟩ := hFields
  exact ⟨_, rfl, if_pos hOpcode⟩

/-- Settles O43: the predictor and the redirect of a completed cycle are the memory stage's. -/
theorem jumpsBypassPredictor : Obligations.JumpsBypassPredictor := by
  intro s t hCompleted hUnresolved
  obtain ⟨_, p, hPhases, rfl⟩ := completed_commit hCompleted
  obtain ⟨_, _, _, _, _, hMemory, _⟩ := phases_ok.mp hPhases
  obtain ⟨hPred, hRedirect⟩ := memoryStage_of_unresolved hMemory hUnresolved
  rw [redirectOf_of_ok hPhases, hRedirect]
  simp [hPred, predOf, jumpDestination]

/-- Settles O53: of the three places `completed_pc_cases` leaves, an aligned one is not SENTINEL. -/
theorem onlyJrReachesSentinel : Obligations.OnlyJrReachesSentinel := by
  intro s t hCompleted hConfig hSlots hPc
  obtain ⟨-, -, hAligned⟩ := (slotsAligned_iff s).mp hSlots
  rcases hPc ▸ completed_pc_cases hCompleted hAligned with hStays | hAlignedPc | hJr
  · exact .inl hStays.symm
  · exact absurd hAlignedPc (by simp [aligned_sentinel_of_wellFormed hConfig])
  · exact .inr hJr

end Sys2Proof
end

section
/-! Proofs of the statements of 46_pipeline.md: what each stage of a completed cycle writes (R272 to R282), the first
fault of a cycle that raises one (R284, R412), the end of the run (R285), and the slots over one step (R281, R283). -/

namespace Sys2Proof.Machine

/-! ### Write-back and retirement -/

/-- The pre-pass makes the one register-file write of a completed cycle (R22, R272). -/
theorem completed_regs {s t : State} (h : Completed s t) :
    t.regs = if s.memwb.cur.valid && s.memwb.cur.ctrl.regWrite then
        regWrite s.regs s.memwb.cur.writeReg (memwbValue s.memwb.cur)
      else s.regs := by
  obtain ⟨_, p, hPhases, rfl⟩ := completed_commit h
  obtain ⟨_, hPrePass, _⟩ := phases_ok.mp hPhases
  rw [prePass_eq] at hPrePass
  rw [terminate_regs, commit_regs, Except.ok.inj hPrePass]

/-- The one bin each opcode retires into (R282). -/
theorem retire_eq (w : MemWb) (h : Histogram) :
    retire w h =
      { nR := h.nR + if w.valid = true ∧ w.opcode = 0x00#6 then 1 else 0
        nI := h.nI + if w.valid = true ∧ w.opcode ∉ [0x00#6, 0x02#6, 0x03#6] then 1 else 0
        nJ := h.nJ + if w.valid = true ∧ (w.opcode = 0x02#6 ∨ w.opcode = 0x03#6) then 1 else 0 } := by
  unfold retire
  by_cases hValid : w.valid = true
  swap
  · simp [hValid]
  by_cases hR : w.opcode = 0x00#6
  · simp [hValid, hR]
  by_cases hJ : w.opcode = 0x02#6 ∨ w.opcode = 0x03#6
  · rcases hJ with hJ | hJ <;> simp [hValid, hJ]
  · obtain ⟨hNotJ, hNotJal⟩ := not_or.mp hJ
    simp [hValid, hR, hNotJ, hNotJal]

/-! ### A completed cycle that does not redirect -/

/-- Without a redirect the commit takes what fetch, decode (after forwarding) and execute wrote (R275, R283). -/
theorem completed_of_no_redirect {s t : State} (h : Completed s t) (hRedirect : redirectOf s = none) :
    ∃ p, phases s (fetchWord s) = .ok p ∧ t.regs = p.regs ∧ t.ifid = .both p.fetch.ifid ∧ t.pc = p.fetch.next
      ∧ t.idex = .both (forwarded s.cfg p) ∧ t.exmem = .both p.executed := by
  obtain ⟨_, p, hPhases, rfl⟩ := completed_commit h
  rw [redirectOf_of_ok hPhases] at hRedirect
  exact ⟨p, hPhases, by simp [afterFlush, hRedirect]⟩

/-- Forwarding happens under `FORWARD` alone (R270, R312). -/
theorem forwarded_of_stall {c : Config} (p : Phases) (h : c.policy = .stall) : forwarded c p = p.decoded := by
  simp [forwarded, h]

/-- A bubble takes no operand (R312). -/
theorem forwarded_of_bubble (c : Config) {p : Phases} (h : p.decoded = .bubble) : forwarded c p = .bubble := by
  simp [forwarded, h]

@[simp] theorem forwarded_valid (c : Config) (p : Phases) : (forwarded c p).valid = p.decoded.valid := by
  obtain ⟨_, _, hForwarded⟩ := forwarded_eq_with_operands c p
  rw [hForwarded]

@[simp] theorem forwarded_aluctl (c : Config) (p : Phases) : (forwarded c p).aluctl = p.decoded.aluctl := by
  obtain ⟨_, _, hForwarded⟩ := forwarded_eq_with_operands c p
  rw [hForwarded]

theorem fetchSuppressed_iff (s : State) :
    fetchSuppressed s = true ↔ s.pc = s.cfg.sentinel ∨ s.haltSeen = true := by
  simp [fetchSuppressed]

theorem isBranchWord_iff (w : Word) : isBranchWord w = true ↔ opcodeOf w = 0x04#6 ∨ opcodeOf w = 0x05#6 := by
  simp [isBranchWord]

/-- Fetch writes a bubble and holds the pc where it is suppressed (R274). -/
theorem fetchStage_suppressed {s : State} {stall : Bool} {w : Word} {o : FetchOut}
    (h : fetchStage s stall w = .ok o) (hSuppressed : fetchSuppressed s = true) :
    o.ifid = .bubble ∧ o.next = s.pc := by
  rcases fetchStage_ok h with ⟨_, rfl⟩ | ⟨hNot, _⟩ | ⟨hNot, _⟩ | ⟨hNot, _⟩
  · exact ⟨rfl, rfl⟩
  all_goals exact absurd hSuppressed (by simp [hNot])

/-- Fetch holds its slot and the pc on a stall (R306). -/
theorem fetchStage_stalled {s : State} {w : Word} {o : FetchOut} (h : fetchStage s true w = .ok o)
    (hSuppressed : fetchSuppressed s = false) : o.ifid = s.ifid.cur ∧ o.next = s.pc := by
  rcases fetchStage_ok h with ⟨hNot, _⟩ | ⟨_, _, rfl⟩ | ⟨_, hNot, _⟩ | ⟨_, hNot, _⟩
  · exact absurd hNot (by simp [hSuppressed])
  · exact ⟨rfl, rfl⟩
  all_goals cases hNot

/-- Fetch reads the word and goes on to the next one, or to the target of a branch predicted taken (R273, R337). -/
theorem fetchStage_reading {s : State} {w : Word} {o : FetchOut} (h : fetchStage s false w = .ok o)
    (hSuppressed : fetchSuppressed s = false) :
    o.ifid = ⟨true, w, s.pc + 4#32⟩
      ∧ o.next = if isBranchWord w = true ∧ predict s.cfg.predMode s.h1 s.h2 = true then
          branchTarget (s.pc + 4#32) (sext32 (immOf w))
        else s.pc + 4#32 := by
  rcases fetchStage_ok h with
    ⟨hNot, _⟩ | ⟨_, hNot, _⟩ | ⟨_, _, _, _, hBranch, rfl⟩ | ⟨_, _, _, _, hBranch, rfl⟩
  · exact absurd hNot (by simp [hSuppressed])
  · cases hNot
  all_goals simp [hBranch]

/-! ### The end of the run -/

theorem haltSeen_of_not_suppressed {s : State} (h : fetchSuppressed s = false) : s.haltSeen = false :=
  (Bool.or_eq_false_iff.mp h).2

/-- `halt_seen` after fetch says whether fetch was suppressed (R274). -/
theorem fetchStage_haltSeen {s : State} {stall : Bool} {w : Word} {o : FetchOut}
    (h : fetchStage s stall w = .ok o) : o.haltSeen = fetchSuppressed s := by
  rcases fetchStage_ok h with
    ⟨hSuppressed, rfl⟩ | ⟨hNot, _, rfl⟩ | ⟨hNot, _, _, _, _, rfl⟩ | ⟨hNot, _, _, _, _, rfl⟩
  · exact hSuppressed.symm
  all_goals exact (haltSeen_of_not_suppressed hNot).trans hNot.symm

theorem State.empty_iff (s : State) :
    s.empty = true ↔ s.ifid.cur.valid = false ∧ s.idex.cur.valid = false ∧ s.exmem.cur.valid = false
      ∧ s.memwb.cur.valid = false := by
  simp [State.empty, and_assoc]

/-- The status of a running machine after the termination check: `DONE` or still running (R285). -/
theorem terminate_status_of_running {s : State} (h : s.status = .running) :
    ((terminate s).status = .done ↔ s.haltSeen = true ∧ s.empty = true)
      ∧ ((terminate s).status = .done ∨ (terminate s).status = .running) := by
  rw [terminate_status, h]
  split
  · next hEnd => simpa using hEnd
  · next hEnd => simpa using hEnd

/-! ### The first fault of a cycle -/

/-- The fatal error with which a phase ends the cycle, if any (R284). -/
def faultOf {α : Type} : Except Fatal α → Option Fatal
  | .error f => some f
  | .ok _ => none

@[simp] theorem faultOf_error {α : Type} (f : Fatal) : faultOf (.error f : Except Fatal α) = some f := rfl
@[simp] theorem faultOf_ok {α : Type} (a : α) : faultOf (.ok a : Except Fatal α) = none := rfl

/-- Two phases in sequence report the first one's error, else the second one's (R284, R412). -/
theorem faultOf_bind {α β : Type} {x : Except Fatal α} {g : α → Except Fatal β} {r r' : Option Fatal}
    (hx : faultOf x = r) (hg : ∀ a, x = .ok a → faultOf (g a) = r') : faultOf (x >>= g) = r.or r' := by
  subst hx
  cases x with
  | error f => rfl
  | ok a => exact hg a rfl

/-- The part of `firstFault` that is the fetch's (R66). -/
def fetchFault (s : State) : Option Fatal :=
  if fetches s && !inRange s.cfg s.pc then some ⟨.fetchOutOfRange, s.pc⟩
  else if fetches s && !aligned s.pc then some ⟨.fetchMisaligned, s.pc⟩
  else none

/-- The part of `firstFault` that is the decode's (R124, R307). -/
def decodeFault (s : State) : Option Fatal :=
  if decodes s && (decode s.ifid.cur.instr == .unknownFunct (functOf s.ifid.cur.instr)) then
    some ⟨.invalidAluControl, s.ifid.cur.instr⟩
  else if decodes s && s.cfg.loadUseMode == .fault && loadUse s.idex.cur s.ifid.cur then
    some ⟨.loadUseHazard, s.ifid.cur.instr⟩
  else none

/-- The part of `firstFault` that is the data access's (R64, R65). -/
def accessFault (s : State) : Option Fatal :=
  if accesses s && !inRange s.cfg s.exmem.cur.aluResult then some ⟨.memOutOfRange, s.exmem.cur.aluResult⟩
  else if accesses s && !aligned s.exmem.cur.aluResult then some ⟨.misalignedData, s.exmem.cur.aluResult⟩
  else none

/-- The order of R412 is the order of the stages. -/
theorem firstFault_eq_or (s : State) :
    firstFault s = (fetchFault s).or ((decodeFault s).or (accessFault s)) := by
  unfold firstFault fetchFault decodeFault accessFault
  split_ifs <;> rfl

/-- The pre-pass raises nothing (R404). -/
theorem faultOf_prePass (f : RegFile) (w : MemWb) : faultOf (prePass f w) = none := by
  rw [prePass_eq, faultOf_ok]

theorem faultOf_fetchStage (s : State) (w : Word) :
    faultOf (fetchStage s (stallOf s) w) = fetchFault s := by
  unfold fetchStage fetchFault fetches
  by_cases hSuppressed : fetchSuppressed s = true
  · simp [hSuppressed]
  by_cases hStall : stallOf s = true
  · simp [hSuppressed, hStall]
  by_cases hRange : inRange s.cfg s.pc = true
  swap
  · simp [hSuppressed, hStall, hRange]
  by_cases hAligned : aligned s.pc = true
  swap
  · simp [hSuppressed, hStall, hRange, hAligned]
  by_cases hBranch : isBranchWord w = true <;> simp [hSuppressed, hStall, hRange, hAligned, hBranch]

/-- Decode finds the code `INVALID` exactly for an unlisted function code (R122, R124). -/
theorem decodedSlot_aluctl_eq_invalid_iff (regs : RegFile) (f : IfId) :
    (decodedSlot regs f).aluctl = .invalid ↔ decode f.instr = .unknownFunct (functOf f.instr) :=
  (aluCodeTable f.instr).2

theorem faultOf_decodeStage (s : State) (regs : RegFile) :
    faultOf (decodeStage s.cfg regs s.ifid.cur s.idex.cur (stallOf s)) = decodeFault s := by
  unfold decodeStage decodeFault decodes
  by_cases hValid : s.ifid.cur.valid = true
  swap
  · simp [hValid]
  by_cases hStall : stallOf s = true
  · simp [hStall]
  by_cases hUnknown : decode s.ifid.cur.instr = .unknownFunct (functOf s.ifid.cur.instr)
  · simp [hValid, hStall, decodedSlot_aluctl_eq_invalid_iff, hUnknown]
  by_cases hLoadUse : (s.cfg.loadUseMode == .fault && loadUse s.idex.cur s.ifid.cur) = true <;>
    simp [hValid, hStall, decodedSlot_aluctl_eq_invalid_iff, hUnknown, hLoadUse]

/-- Execute raises nothing on a slot without the code `INVALID` (R154, R413). -/
theorem faultOf_executeStage {s : State} (h : s.ExecuteCodeValid) :
    faultOf (executeStage s.cfg s.idex.cur s.hi s.lo) = none := by
  obtain ⟨x, hl, hExecute⟩ := executeStage_of_code_valid (c := s.cfg) s.hi s.lo h
  rw [hExecute, faultOf_ok]

/-- The checks of a data access, the range before the alignment (R64, R65). -/
theorem faultOf_dataCheck (c : Config) (ea : Word) :
    faultOf (dataCheck c ea) =
      if inRange c ea = false then some ⟨.memOutOfRange, ea⟩
      else if aligned ea = false then some ⟨.misalignedData, ea⟩
      else none := by
  cases hRange : inRange c ea with
  | false => simp [dataCheck_of_outOfRange hRange]
  | true =>
    cases hAligned : aligned ea with
    | false => simp [dataCheck_of_misaligned hRange hAligned]
    | true => simp [dataCheck_of_ok hRange hAligned]

theorem faultOf_accessCheck (s : State) (hValid : s.exmem.cur.valid = true) :
    faultOf (accessCheck s.cfg s.exmem.cur) = accessFault s := by
  unfold accessCheck accessFault accesses
  by_cases hAccess : (s.exmem.cur.ctrl.memRead || s.exmem.cur.ctrl.memWrite) = true
  · simp [hValid, hAccess, faultOf_dataCheck]
  · simp [hValid, hAccess]

/-- Branch resolution raises nothing while a prediction is outstanding (R338, R408). -/
theorem resolveBranch_of_pq_ne_nil {m : ExMem} {pred : PredState} (mode : PredMode)
    (h : m.ctrl.branch = true → pred.pq ≠ []) : ∃ r, resolveBranch mode m pred = .ok r := by
  unfold resolveBranch
  split
  · next hBranch =>
    obtain ⟨head, rest, hQueue⟩ := List.exists_cons_of_ne_nil (h hBranch)
    unfold validate
    rw [hQueue]
    dsimp only
    split
    · exact ⟨_, rfl⟩
    · exact ⟨_, rfl⟩
  · exact ⟨_, rfl⟩

theorem faultOf_memoryStage (s : State) {pred : PredState} (h : resolves s = true → pred.pq ≠ []) :
    faultOf (memoryStage s.cfg s.exmem.cur s.mem s.memAccesses pred) = accessFault s := by
  by_cases hValid : s.exmem.cur.valid = true
  swap
  · simp [memoryStage, accessFault, accesses, hValid]
  rw [← faultOf_accessCheck s hValid]
  obtain ⟨⟨pred', miss⟩, hResolve⟩ := resolveBranch_of_pq_ne_nil (m := s.exmem.cur) s.cfg.predMode
    fun hBranch => h (by simp [resolves, hValid, hBranch])
  cases hCheck : accessCheck s.cfg s.exmem.cur <;> simp [memoryStage, hValid, hCheck, hResolve]

/-- A queue that matches the branches in flight holds the prediction of the branch to be resolved (R344). -/
theorem pq_ne_nil_of_resolves {s : State} (hQueue : s.QueueMatches) (h : resolves s = true) : s.pq ≠ [] := by
  intro hNil
  rw [resolves] at h
  rw [State.QueueMatches, hNil, List.length_nil, branchesInFlight, if_pos h] at hQueue
  omega

/-- Fetch takes no prediction from the queue (R337). -/
theorem fetchStage_pq_prefix {s : State} {stall : Bool} {w : Word} {o : FetchOut}
    (h : fetchStage s stall w = .ok o) : s.pq <+: o.pq := by
  rcases fetchStage_ok h with ⟨_, rfl⟩ | ⟨_, _, rfl⟩ | ⟨_, _, _, _, _, rfl⟩ | ⟨_, _, _, _, _, rfl⟩
  · exact List.prefix_rfl
  · exact List.prefix_rfl
  · exact List.prefix_append _ _
  · exact List.prefix_rfl

/-- A cycle ends with `firstFault`, and completes where there is none: the pre-pass, execute and the queue raise
nothing, and the other stages raise their own parts in order (R284, R412, R413). -/
theorem faultOf_phases {s : State} (hCode : s.ExecuteCodeValid) (hQueue : s.QueueMatches) (w : Word) :
    faultOf (phases s w) = firstFault s := by
  rw [firstFault_eq_or, phases]
  refine faultOf_bind (r' := (fetchFault s).or _) (faultOf_prePass _ _) fun regs _ => ?_
  refine faultOf_bind (faultOf_fetchStage s w) fun fetch hFetch => ?_
  refine faultOf_bind (faultOf_decodeStage s regs) fun decoded _ => ?_
  refine faultOf_bind (r' := accessFault s) (faultOf_executeStage hCode) fun executed _ => ?_
  rw [← Option.or_none (o := accessFault s)]
  refine faultOf_bind (faultOf_memoryStage s fun hResolves => ?_) fun memory _ => rfl
  exact (fetchStage_pq_prefix hFetch).ne_nil (pq_ne_nil_of_resolves hQueue hResolves)

/-! ### The slots over one step -/

/-- Fetch writes a valid slot or `BUBBLE`, given that a held slot is one (R273, R274, R306). -/
theorem fetchStage_valid_or_bubble {s : State} {stall : Bool} {w : Word} {o : FetchOut}
    (h : fetchStage s stall w = .ok o) (hHeld : s.ifid.cur.valid = true ∨ s.ifid.cur = .bubble) :
    o.ifid.valid = true ∨ o.ifid = .bubble := by
  rcases fetchStage_ok h with ⟨_, rfl⟩ | ⟨_, _, rfl⟩ | ⟨_, _, _, _, _, rfl⟩ | ⟨_, _, _, _, _, rfl⟩
  · exact .inr rfl
  · exact hHeld
  · exact .inl rfl
  · exact .inl rfl

/-- After forwarding the decoded slot is valid, with a code other than `INVALID`, or `BUBBLE` (R276, R124). -/
theorem forwarded_valid_or_bubble {s : State} {w : Word} {p : Phases} (h : phases s w = .ok p) :
    ((forwarded s.cfg p).valid = true ∧ (forwarded s.cfg p).aluctl ≠ .invalid)
      ∨ forwarded s.cfg p = .bubble := by
  obtain ⟨_, _, _, hDecode, _⟩ := phases_ok.mp h
  rcases decodeStage_ok hDecode with ⟨_, hBubble⟩ | ⟨_, _, hSlot, hCode, _⟩
  · exact .inr (forwarded_of_bubble s.cfg hBubble)
  · exact .inl ⟨by rw [forwarded_valid, hSlot]; rfl, by rwa [forwarded_aluctl]⟩

theorem executeStage_valid_or_bubble {c : Config} {e : IdEx} {hi lo : Word} {x : ExMem}
    {hilo : Option (Word × Word)} (h : executeStage c e hi lo = .ok (x, hilo)) :
    x.valid = true ∨ x = .bubble := by
  rcases executeStage_ok h with ⟨_, rfl, _⟩ | ⟨_, _, _, rfl, _⟩
  · exact .inr rfl
  · exact .inl rfl

theorem memoryStage_valid_or_bubble {c : Config} {m : ExMem} {mem : Memory} {n : Nat} {pred : PredState}
    {o : MemOut} (h : memoryStage c m mem n pred = .ok o) : o.memwb.valid = true ∨ o.memwb = .bubble := by
  rcases memoryStage_ok h with ⟨_, rfl⟩ | ⟨_, _, hSlot, _⟩
  · exact .inr rfl
  · exact .inl (by rw [hSlot]; rfl)

/-- The commit writes both copies of each slot alike, each from its stage or flushed (R281, R283). -/
theorem slotsWellFormed_terminate_commit {s : State} {w : Word} {p : Phases} (hPhases : phases s w = .ok p)
    (h : s.SlotsWellFormed) : (terminate (commit s p)).SlotsWellFormed := by
  obtain ⟨_, _, hFetch, _, hExecute, hMemory, _⟩ := phases_ok.mp hPhases
  obtain ⟨hIfId, -⟩ := h
  simp only [State.SlotsWellFormed, terminate_ifid, terminate_idex, terminate_exmem, terminate_memwb,
    commit_ifid, commit_idex, commit_exmem, commit_memwb, PipeReg.both_cur, PipeReg.both_nxt, and_true, afterFlush]
  have hMemWb := memoryStage_valid_or_bubble hMemory
  split
  · exact ⟨.inr rfl, .inr rfl, .inr rfl, hMemWb⟩
  · exact ⟨fetchStage_valid_or_bubble hFetch hIfId, (forwarded_valid_or_bubble hPhases).imp_left And.left,
      executeStage_valid_or_bubble hExecute, hMemWb⟩

/-- Decode lets no `INVALID` code into execute, and a flushed slot is a bubble (R124, R342). -/
theorem executeCodeValid_terminate_commit {s : State} {w : Word} {p : Phases} (hPhases : phases s w = .ok p) :
    (terminate (commit s p)).ExecuteCodeValid := by
  simp only [State.ExecuteCodeValid, terminate_idex, commit_idex, PipeReg.both_cur, afterFlush]
  split
  · simp
  · rcases forwarded_valid_or_bubble hPhases with ⟨_, hCode⟩ | hBubble
    · exact fun _ => hCode
    · simp [hBubble]

end Sys2Proof.Machine

/-! The settling theorems stand in a namespace of their own: three of them have the name of a stage driver. -/

namespace Sys2Proof.Pipeline

open Sys2Proof.Machine

/-- Settles O15: the word at the pc is the word by which `i` is issued. -/
theorem stepRunsDecoded : Obligations.StepRunsDecoded := by
  intro s i _ hDecode
  refine ⟨by cases i <;> rfl, ?_⟩
  rw [step_eq_clockOutcome, exec_eq_issue, issue, wordAtPc, if_pos hDecode]

/-- Settles O29: the write-back mux of the statement is `memwbValue`, written out. -/
theorem writeBackWritesRegister : Obligations.WriteBackWritesRegister := by
  intro s t hCompleted
  rw [completed_regs hCompleted]
  simp only [Bool.and_eq_true]
  rfl

/-- Settles O30: the histogram a completed cycle commits is the one `retire` answers. -/
theorem retirementCounts : Obligations.RetirementCounts := by
  intro s t hCompleted
  obtain ⟨_, p, hPhases, rfl⟩ := completed_commit hCompleted
  obtain ⟨_, _, _, _, _, _, hHistogram⟩ := phases_ok.mp hPhases
  rw [retire_eq] at hHistogram
  rw [terminate_nR, terminate_nI, terminate_nJ, commit_nR, commit_nI, commit_nJ]
  exact ⟨congrArg Histogram.nR hHistogram, congrArg Histogram.nJ hHistogram, congrArg Histogram.nI hHistogram⟩

/-- Settles O31: the slot handed on, memory and the count are committed as the memory stage answers them, whether
the cycle redirects or not. -/
theorem memoryStage : Obligations.MemoryStage := by
  intro s t hCompleted
  obtain ⟨_, p, hPhases, rfl⟩ := completed_commit hCompleted
  obtain ⟨_, _, _, _, _, hMemory, _⟩ := phases_ok.mp hPhases
  rw [terminate_memwb, terminate_mem, terminate_memAccesses, commit_memwb, commit_mem, commit_memAccesses]
  rcases memoryStage_ok hMemory with ⟨hBubble, hOut⟩ | ⟨hValid, _, hSlot, hMem, hCount, _⟩
  · refine ⟨fun _ => ?_, fun hValid => absurd hValid (by simp [hBubble])⟩
    simp [hOut]
  · refine ⟨fun hBubble => absurd hValid (by simp [hBubble]), fun _ => ?_⟩
    rw [hSlot, hMem, hCount, accessCount, ← Nat.add_assoc]
    exact ⟨rfl, rfl, rfl⟩

/-- Settles O33: the slot execute answers, with its operand B, targets, link and destination written out. -/
theorem executeStage : Obligations.ExecuteStage := by
  intro s t hCompleted hRedirect
  obtain ⟨p, hPhases, _, _, _, _, hExMem⟩ := completed_of_no_redirect hCompleted hRedirect
  obtain ⟨_, _, _, _, hExecute, _⟩ := phases_ok.mp hPhases
  rw [hExMem, ← aluOperandB_eq_ite]
  rcases executeStage_ok hExecute with ⟨hBubble, hSlot, _⟩ | ⟨hValid, out, hAlu, hSlot, _⟩
  · exact ⟨fun _ => by rw [hSlot], fun hValid => absurd hValid (by simp [hBubble])⟩
  · exact ⟨fun hBubble => absurd hValid (by simp [hBubble]), fun _ => ⟨out, hAlu, by rw [hSlot]; rfl⟩⟩

/-- Settles O35: forwarding gives the operands, which under `STALL` are the register reads of the decoded slot. -/
theorem decodeStage : Obligations.DecodeStage := by
  intro s t hCompleted hRedirect
  obtain ⟨p, hPhases, hRegs, _, _, hIdEx, _⟩ := completed_of_no_redirect hCompleted hRedirect
  obtain ⟨_, _, _, hDecode, _⟩ := phases_ok.mp hPhases
  rw [hIdEx, hRegs]
  rcases decodeStage_ok hDecode with ⟨hNone, hBubble⟩ | ⟨hValid, hNoStall, hSlot, _⟩
  · have hNotDecodes : decodes s = false := by rcases hNone with h | h <;> simp [decodes, h]
    exact ⟨fun _ => by rw [forwarded_of_bubble s.cfg hBubble],
      fun hDecodes => absurd hDecodes (by simp [hNotDecodes])⟩
  · have hDecodes : decodes s = true := by simp [decodes, hValid, hNoStall]
    refine ⟨fun hNot => absurd hDecodes (by simp [hNot]), fun _ =>
      ⟨(forwarded s.cfg p).rsVal, (forwarded s.cfg p).rtVal, ?_, fun hPolicy => ?_⟩⟩
    · obtain ⟨_, _, hForwarded⟩ := forwarded_eq_with_operands s.cfg p
      rw [hForwarded, hSlot]
      rfl
    · rw [forwarded_of_stall p hPolicy, hSlot]
      exact ⟨rfl, rfl⟩

/-- Settles O39: by what holds fetch off, in the order of R274 and R306. -/
theorem fetchStage : Obligations.FetchStage := by
  intro s t hCompleted hRedirect
  obtain ⟨p, hPhases, _, hIfId, hPc, _⟩ := completed_of_no_redirect hCompleted hRedirect
  obtain ⟨_, _, hFetch, _⟩ := phases_ok.mp hPhases
  rw [hIfId, hPc]
  refine ⟨fun hHeld => ?suppressed, fun hPcNot hHalt => ?running⟩
  case suppressed =>
    obtain ⟨hSlot, hNext⟩ := fetchStage_suppressed hFetch ((fetchSuppressed_iff s).mpr hHeld)
    exact ⟨by rw [hSlot], hNext⟩
  case running =>
    have hSuppressed : fetchSuppressed s = false := by simp [fetchSuppressed, hPcNot, hHalt]
    refine ⟨fun hStall => ?stalled, fun hStall => ?reading⟩
    all_goals rw [hStall] at hFetch
    case stalled =>
      obtain ⟨hSlot, hNext⟩ := fetchStage_stalled hFetch hSuppressed
      exact ⟨by rw [hSlot], hNext⟩
    case reading =>
      obtain ⟨hSlot, hNext⟩ := fetchStage_reading hFetch hSuppressed
      simp only [isBranchWord_iff] at hNext
      exact ⟨by rw [hSlot]; rfl, hNext⟩

/-- Settles O49: the cycle raises `firstFault`, and a cycle that raises nothing commits. -/
theorem firstFaultReported : Obligations.FirstFaultReported := by
  intro s hRun hCode hQueue
  rw [← faultOf_phases hCode hQueue (fetchWord s)]
  have hStep := step_running hRun
  rcases clock_cases s (fetchWord s) with ⟨f, hPhases, hClock⟩ | ⟨p, hPhases, hClock⟩
  · rw [hPhases]
    exact hStep.trans (congrArg _ hClock)
  · rw [hPhases]
    exact ⟨_, hStep.trans (congrArg _ hClock), by simp⟩

/-- Settles O50: fetch sets `halt_seen` where it is suppressed, and the termination check reads it and the slots as
committed. -/
theorem termination : Obligations.Termination := by
  intro s t hCompleted
  obtain ⟨hRun, p, hPhases, rfl⟩ := completed_commit hCompleted
  obtain ⟨_, _, hFetch, _⟩ := phases_ok.mp hPhases
  obtain ⟨hDone, hStatus⟩ := terminate_status_of_running (s := commit s p) hRun
  refine ⟨?_, ?_, hStatus⟩
  · rw [terminate_haltSeen, commit_haltSeen, fetchStage_haltSeen hFetch, fetchSuppressed_iff, or_comm]
  · rw [hDone, State.empty_iff]
    simp only [terminate_haltSeen, terminate_ifid, terminate_idex, terminate_exmem, terminate_memwb]

/-- Settles O58: a fatal error leaves the slots alone, and a commit writes them from their stages. -/
theorem slotsWellFormedKept : Obligations.SlotsWellFormedKept := by
  intro s t hSlots hCode hStep
  obtain ⟨_, rfl⟩ := step_next hStep
  rcases clock_cases s (fetchWord s) with ⟨e, _, hFail⟩ | ⟨p, hPhases, hCommit⟩
  · rw [hFail]
    exact ⟨hSlots, hCode⟩
  · rw [hCommit]
    exact ⟨slotsWellFormed_terminate_commit hPhases hSlots, executeCodeValid_terminate_commit hPhases⟩

end Sys2Proof.Pipeline
end

section
/-! Proofs of the statements of 48_branch_predictor.md: the modes' predictions and updates (R331 to R336), the queue
of outstanding predictions (R337, R338, R344, R345), the resolution of a branch (R340, R341, R346), and the flush
(R342). -/

namespace Sys2Proof.Machine

/-! ### The branches in flight, slot by slot -/

/-- The slot in decode is a conditional branch, by its word (R273, R344). -/
def IfId.holdsBranch (f : IfId) : Bool := f.valid && isBranchWord f.instr

/-- The slot in execute is a conditional branch, by its bundle (R344). -/
def IdEx.holdsBranch (e : IdEx) : Bool := e.valid && e.ctrl.branch

/-- The slot in memory is a conditional branch, by its bundle (R338, R344). -/
def ExMem.holdsBranch (m : ExMem) : Bool := m.valid && m.ctrl.branch

@[simp] theorem IfId.bubble_holdsBranch : IfId.bubble.holdsBranch = false := rfl
@[simp] theorem IdEx.bubble_holdsBranch : IdEx.bubble.holdsBranch = false := rfl
@[simp] theorem ExMem.bubble_holdsBranch : ExMem.bubble.holdsBranch = false := rfl

theorem resolves_eq_holdsBranch (s : State) : resolves s = s.exmem.cur.holdsBranch := rfl

theorem branchesInFlight_eq (s : State) :
    branchesInFlight s =
      s.exmem.cur.holdsBranch.toNat + s.idex.cur.holdsBranch.toNat + s.ifid.cur.holdsBranch.toNat := by
  simp only [Bool.toNat, Bool.cond_eq_ite]
  rfl

/-- At most one branch in each of decode, execute and memory (R345). -/
theorem branchesInFlight_le_three (s : State) : branchesInFlight s ≤ 3 := by
  rw [branchesInFlight_eq]
  have := Bool.toNat_le s.exmem.cur.holdsBranch
  have := Bool.toNat_le s.idex.cur.holdsBranch
  have := Bool.toNat_le s.ifid.cur.holdsBranch
  omega

/-- The decoder marks as branches the words fetch predicts (R113, R273). -/
theorem controlOf_branch (opcode funct : BitVec 6) :
    (controlOf opcode funct).branch = (opcode == 0x04#6 || opcode == 0x05#6) := by
  unfold controlOf
  split_ifs <;> simp_all [rTypeCtrl, Ctrl.off]

theorem decodedSlot_holdsBranch (regs : RegFile) {f : IfId} (hValid : f.valid = true) :
    (decodedSlot regs f).holdsBranch = f.holdsBranch := by
  rw [IfId.holdsBranch, hValid]
  exact congrArg (true && ·) (controlOf_branch (opcodeOf f.instr) (functOf f.instr))

/-- Decode hands on the branch in `IFID` unless it stalls (R276). -/
theorem decodeStage_holdsBranch {c : Config} {regs : RegFile} {f : IfId} {e : IdEx} {stall : Bool} {d : IdEx}
    (h : decodeStage c regs f e stall = .ok d) : d.holdsBranch = (f.holdsBranch && !stall) := by
  rcases decodeStage_ok h with ⟨hInvalid | hStall, rfl⟩ | ⟨hValid, hNoStall, rfl, _⟩
  · simp [IfId.holdsBranch, hInvalid]
  · simp [hStall]
  · simp [decodedSlot_holdsBranch regs hValid, hNoStall]

@[simp] theorem forwarded_holdsBranch (c : Config) (p : Phases) :
    (forwarded c p).holdsBranch = p.decoded.holdsBranch := by
  obtain ⟨_, _, hForwarded⟩ := forwarded_eq_with_operands c p
  rw [hForwarded]
  rfl

/-- Execute hands on the branch in `IDEX` (R277). -/
theorem executeStage_holdsBranch {c : Config} {e : IdEx} {hi lo : Word} {x : ExMem} {hilo : Option (Word × Word)}
    (h : executeStage c e hi lo = .ok (x, hilo)) : x.holdsBranch = e.holdsBranch := by
  rcases executeStage_ok h with ⟨hInvalid, rfl, _⟩ | ⟨hValid, _, _, rfl, _⟩
  · simp [IdEx.holdsBranch, hInvalid]
  · simp [IdEx.holdsBranch, ExMem.holdsBranch, executedSlot, hValid]

/-! ### The queue through the stages -/

/-- Fetch pushes the prediction of a branch it reads, and nothing else (R337). -/
theorem fetchStage_pq {s : State} {o : FetchOut} (h : fetchStage s (stallOf s) (fetchWord s) = .ok o) :
    o.pq = s.pq ++ pushed s := by
  rcases fetchStage_ok h with ⟨hSuppressed, rfl⟩ | ⟨_, hStall, rfl⟩ | ⟨hRuns, hStall, hRange, hAligned, hBranch, rfl⟩
    | ⟨hRuns, hStall, hRange, hAligned, hBranch, rfl⟩
  · simp [pushed, fetchReads, hSuppressed]
  · simp [pushed, fetchReads, hStall]
  · simp [pushed, fetchReads, hRuns, hStall, hRange, hAligned, hBranch]
  · simp [pushed, hBranch]

/-- Fetch pushes one entry for each branch it adds to the one in decode that a stall holds; a suppressed fetch adds
none where it finds nothing in decode (R274, R306, R344). -/
theorem fetchStage_pq_length {s : State} {stall : Bool} {w : Word} {o : FetchOut}
    (h : fetchStage s stall w = .ok o) (hHeld : fetchSuppressed s = true → s.ifid.cur.valid = false) :
    o.pq.length + (s.ifid.cur.holdsBranch && stall).toNat = s.pq.length + o.ifid.holdsBranch.toNat := by
  rcases fetchStage_ok h with ⟨hSuppressed, rfl⟩ | ⟨_, hStall, rfl⟩ | ⟨_, hStall, _, _, hBranch, rfl⟩
    | ⟨_, hStall, _, _, hBranch, rfl⟩
  · simp [IfId.holdsBranch, hHeld hSuppressed]
  · simp [hStall]
  all_goals simp [IfId.holdsBranch, hStall, hBranch]

/-- A resolved branch takes the head of the queue, moves the history towards the outcome and counts one hit or one
miss; one that does not jump redirects on a miss alone (R338, R340, R341). -/
theorem memoryStage_of_resolved {c : Config} {m : ExMem} {mem : Memory} {n : Nat} {pred : PredState} {o : MemOut}
    (h : memoryStage c m mem n pred = .ok o) (hBranch : m.holdsBranch = true) :
    ∃ head rest, pred.pq = head :: rest ∧ o.pred.pq = rest
      ∧ o.pred.h1 = updateH1 c.predMode pred.h1 m.zero ∧ o.pred.h2 = updateH2 c.predMode pred.h2 m.zero
      ∧ ((head = m.zero ∧ o.pred.hits = pred.hits + 1 ∧ o.pred.misses = pred.misses
          ∧ (m.ctrl.jump = false → o.redirect = none))
        ∨ (head ≠ m.zero ∧ o.pred.hits = pred.hits ∧ o.pred.misses = pred.misses + 1
          ∧ (m.ctrl.jump = false → o.redirect = some (correctNext m)))) := by
  obtain ⟨hValid, hCtrl⟩ := Bool.and_eq_true_iff.mp hBranch
  rcases memoryStage_ok h with ⟨hInvalid, _⟩ | ⟨_, _, _, _, _, miss, hResolve, hRedirect⟩
  · exact absurd hValid (by simp [hInvalid])
  · rw [resolveBranch, if_pos hCtrl] at hResolve
    obtain ⟨head, rest, hQueue, hH1, hH2, hRest, hOutcome⟩ := validate_ok hResolve
    refine ⟨head, rest, hQueue, hRest, hH1, hH2, hOutcome.imp ?hit ?miss⟩
    all_goals
      rintro ⟨hPrediction, hHits, hMisses, rfl⟩
      exact ⟨hPrediction, hHits, hMisses, fun hJump => by simp [hRedirect, hJump]⟩

/-- The memory stage pops one entry for a branch and none otherwise (R338). -/
theorem memoryStage_pq {c : Config} {m : ExMem} {mem : Memory} {n : Nat} {pred : PredState} {o : MemOut}
    (h : memoryStage c m mem n pred = .ok o) :
    o.pred.pq = pred.pq.drop (if m.holdsBranch then 1 else 0)
      ∧ o.pred.pq.length + m.holdsBranch.toNat = pred.pq.length := by
  cases hBranch : m.holdsBranch with
  | true =>
    obtain ⟨head, rest, hQueue, hRest, _⟩ := memoryStage_of_resolved h hBranch
    simp [hQueue, hRest]
  | false =>
    obtain ⟨hPred, _⟩ := memoryStage_of_unresolved h hBranch
    simp [hPred]

/-- The memory stage counts one resolution for a branch and none otherwise (R346). -/
theorem memoryStage_hits_add_misses {c : Config} {m : ExMem} {mem : Memory} {n : Nat} {pred : PredState}
    {o : MemOut} (h : memoryStage c m mem n pred = .ok o) :
    o.pred.hits + o.pred.misses = pred.hits + pred.misses + (if m.holdsBranch then 1 else 0) := by
  cases hBranch : m.holdsBranch with
  | true =>
    obtain ⟨_, _, _, _, _, _, ⟨_, hHits, hMisses, _⟩ | ⟨_, hHits, hMisses, _⟩⟩ := memoryStage_of_resolved h hBranch
    all_goals
      rw [hHits, hMisses, if_pos rfl]
      omega
  | false =>
    obtain ⟨hPred, _⟩ := memoryStage_of_unresolved h hBranch
    simp [hPred]

/-! ### What the commit takes over -/

/-- What a redirecting cycle commits (R342, R343). -/
theorem afterFlush_of_redirect (c : Config) {p : Phases} {target : Word} (h : p.memory.redirect = some target) :
    afterFlush c p = ⟨.bubble, .bubble, .bubble, target, [], none⟩ := by
  simp [afterFlush, h]

/-- What a cycle without a redirect commits (R283). -/
theorem afterFlush_of_no_redirect (c : Config) {p : Phases} (h : p.memory.redirect = none) :
    afterFlush c p =
      ⟨p.fetch.ifid, forwarded c p, p.executed, p.fetch.next, p.memory.pred.pq, p.hilo⟩ := by
  simp [afterFlush, h]

/-! ### The queue's invariant over a step -/

/-- A flush empties the queue and squashes every branch in flight (R342). -/
theorem queueMatches_commit_of_redirect {s : State} {p : Phases} {target : Word}
    (h : p.memory.redirect = some target) : (commit s p).QueueMatches := by
  simp [State.QueueMatches, branchesInFlight_eq, afterFlush_of_redirect s.cfg h]

/-- Without a flush each branch keeps its entry: fetch pushes one for the branch it reads, the branches in decode and
execute move on or are held, and the branch in memory takes its entry with it (R344). -/
theorem queueMatches_commit_of_no_redirect {s : State} {w : Word} {p : Phases} (hPhases : phases s w = .ok p)
    (h : p.memory.redirect = none) (hQueue : s.QueueMatches)
    (hHeld : fetchSuppressed s = true → s.ifid.cur.valid = false) : (commit s p).QueueMatches := by
  obtain ⟨_, _, hFetch, hDecode, hExecute, hMemory, _⟩ := phases_ok.mp hPhases
  have hPushed := fetchStage_pq_length hFetch hHeld
  have hDecoded := decodeStage_holdsBranch hDecode
  have hExecuted := executeStage_holdsBranch hExecute
  have hPopped : p.memory.pred.pq.length + s.exmem.cur.holdsBranch.toNat = p.fetch.pq.length :=
    (memoryStage_pq hMemory).2
  have hSplit : (s.ifid.cur.holdsBranch && stallOf s).toNat + (s.ifid.cur.holdsBranch && !stallOf s).toNat
      = s.ifid.cur.holdsBranch.toNat := by
    cases stallOf s <;> simp
  rw [State.QueueMatches, branchesInFlight_eq] at hQueue ⊢
  simp only [commit_pq, commit_exmem, commit_idex, commit_ifid, PipeReg.both_cur,
    afterFlush_of_no_redirect s.cfg h, forwarded_holdsBranch, hDecoded, hExecuted]
  omega

/-- Nothing is in decode once the fetch is suppressed: a suppressed fetch and a flush leave a bubble, and every other
fetch leaves a pc that is not SENTINEL (R243, R274). -/
theorem ifid_invalid_of_suppressed_commit {s : State} {w : Word} {p : Phases} (hPhases : phases s w = .ok p)
    (hConfig : s.cfg.wellFormed = true) (hSuppressed : fetchSuppressed (commit s p) = true) :
    (commit s p).ifid.cur.valid = false := by
  obtain ⟨_, _, hFetch, _⟩ := phases_ok.mp hPhases
  rw [commit_ifid, PipeReg.both_cur]
  cases hRedirect : p.memory.redirect with
  | some target => rw [afterFlush_of_redirect s.cfg hRedirect, IfId.bubble_valid]
  | none =>
    rw [fetchSuppressed_iff, commit_pc, commit_cfg, commit_haltSeen, fetchStage_haltSeen hFetch,
      afterFlush_of_no_redirect s.cfg hRedirect] at hSuppressed
    rw [afterFlush_of_no_redirect s.cfg hRedirect]
    cases hWas : fetchSuppressed s with
    | true => rw [(fetchStage_suppressed hFetch hWas).1, IfId.bubble_valid]
    | false =>
      have hNext : p.fetch.next = s.cfg.sentinel := hSuppressed.resolve_right (by simp [hWas])
      have hPc : s.pc ≠ s.cfg.sentinel := fun hEq => by simp [fetchSuppressed, hEq] at hWas
      rcases fetchStage_next_aligned hFetch with hStays | hAligned
      · exact absurd (hStays.symm.trans hNext) hPc
      · rw [hNext, aligned_sentinel_of_wellFormed hConfig] at hAligned
        cases hAligned

/-- A commit keeps the queue's invariant. -/
theorem queueInvariant_commit {s : State} {w : Word} {p : Phases} (hPhases : phases s w = .ok p)
    (h : s.QueueInvariant) : (commit s p).QueueInvariant := by
  obtain ⟨hConfig, hQueue, hHeld⟩ := h
  refine ⟨hConfig, ?_, ifid_invalid_of_suppressed_commit hPhases hConfig⟩
  cases hRedirect : p.memory.redirect with
  | some target => exact queueMatches_commit_of_redirect hRedirect
  | none => exact queueMatches_commit_of_no_redirect hPhases hRedirect hQueue hHeld

/-- The termination check leaves alone what the queue's invariant speaks of (R285). -/
theorem terminate_queueInvariant (s : State) : (terminate s).QueueInvariant ↔ s.QueueInvariant := by
  unfold terminate
  split <;> rfl

end Sys2Proof.Machine

namespace Sys2Proof

open Sys2Proof.Machine

/-- Settles O45: by the four levels of the 2-bit history. -/
theorem predictorTables : Obligations.PredictorTables := by
  intro h1 h2 taken
  refine ⟨rfl, beq_iff_eq, decide_eq_true_iff, rfl, rfl, rfl, ?_⟩
  cases h2 <;> cases taken <;> rfl

/-- Settles O56: a fatal error leaves pc, slots and queue alone, and a commit keeps the invariant; the bound is that
of the branches in flight. -/
theorem queueInvariantKept : Obligations.QueueInvariantKept := by
  intro s t hInvariant hStep
  have hKept : t.QueueInvariant := by
    obtain ⟨_, rfl⟩ := step_next hStep
    rcases clock_cases s (fetchWord s) with ⟨e, _, hFail⟩ | ⟨p, hPhases, hCommit⟩
    · rw [hFail]
      exact hInvariant
    · rw [hCommit, terminate_queueInvariant]
      exact queueInvariant_commit hPhases hInvariant
  refine ⟨hKept, ?_⟩
  obtain ⟨_, hQueue, _⟩ := hKept
  exact hQueue ▸ branchesInFlight_le_three t

/-- Settles O40: fetch pushes, then the memory stage pops, and without a redirect the commit takes the queue as it
leaves it. -/
theorem queuePushPop : Obligations.QueuePushPop := by
  intro s t hCompleted hRedirect
  obtain ⟨_, p, hPhases, rfl⟩ := completed_commit hCompleted
  obtain ⟨_, _, hFetch, _, _, hMemory, _⟩ := phases_ok.mp hPhases
  rw [redirectOf_of_ok hPhases] at hRedirect
  rw [terminate_pq, commit_pq, afterFlush_of_no_redirect s.cfg hRedirect, ← fetchStage_pq hFetch]
  exact (memoryStage_pq hMemory).1

/-- Settles O41: the commit takes the values of the flush, and only a valid slot in memory redirects. -/
theorem flushOnRedirect : Obligations.FlushOnRedirect := by
  intro s t target hCompleted hRedirect
  obtain ⟨_, p, hPhases, rfl⟩ := completed_commit hCompleted
  obtain ⟨_, _, _, _, _, hMemory, _⟩ := phases_ok.mp hPhases
  rw [redirectOf_of_ok hPhases] at hRedirect
  have hSlot : p.memory.memwb.valid = true ∧ p.memory.memwb.opcode = s.exmem.cur.opcode := by
    rcases memoryStage_ok hMemory with ⟨_, hOut⟩ | ⟨_, _, hSlot, _⟩
    · simp [hOut] at hRedirect
    · rw [hSlot]
      exact ⟨rfl, rfl⟩
  simpa [afterFlush_of_redirect s.cfg hRedirect, hiAfter, loAfter] using hSlot

/-- Settles O42: the entry compared is the head of the queue as the cycle found it, since fetch pushes at the tail. -/
theorem branchResolution : Obligations.BranchResolution := by
  intro s t hCompleted hQueue hResolves hJump
  obtain ⟨_, p, hPhases, rfl⟩ := completed_commit hCompleted
  obtain ⟨_, _, hFetch, _, _, hMemory, _⟩ := phases_ok.mp hPhases
  obtain ⟨head, rest, hHead⟩ := List.exists_cons_of_ne_nil (pq_ne_nil_of_resolves hQueue hResolves)
  obtain ⟨head', _, hPushed, _, hH1, hH2, hOutcome⟩ := memoryStage_of_resolved hMemory hResolves
  have hSame : head = head' := by
    have hFetched : (predOf s p.fetch.pq).pq = s.pq ++ pushed s := fetchStage_pq hFetch
    rw [hPushed, hHead, List.cons_append] at hFetched
    exact (List.cons.inj hFetched).1.symm
  subst hSame
  rw [redirectOf_of_ok hPhases, terminate_h1, terminate_h2, terminate_hits, terminate_misses, commit_h1, commit_h2,
    commit_hits, commit_misses]
  refine ⟨head, rest, hHead, hH1, hH2, fun hHit => ?hit, fun hMiss => ?miss⟩
  all_goals rcases hOutcome with ⟨hPrediction, hHits, hMisses, hNext⟩ | ⟨hPrediction, hHits, hMisses, hNext⟩
  case hit.inl => exact ⟨hHits, hMisses, hNext hJump⟩
  case hit.inr => exact absurd hHit hPrediction
  case miss.inl => exact absurd hPrediction hMiss
  case miss.inr => exact ⟨hHits, hMisses, hNext hJump⟩

/-- Settles O44: the counters of a completed cycle are the memory stage's. -/
theorem hitsPlusMisses : Obligations.HitsPlusMisses := by
  intro s t hCompleted
  obtain ⟨_, p, hPhases, rfl⟩ := completed_commit hCompleted
  obtain ⟨_, _, _, _, _, hMemory, _⟩ := phases_ok.mp hPhases
  rw [terminate_hits, terminate_misses, commit_hits, commit_misses]
  exact memoryStage_hits_add_misses hMemory

end Sys2Proof
end

section
/-! Proofs of the statements of 47_hazards.md: when the unit stalls (R305), what a stall holds and how long it lasts
(R306, R309), and which value an operand takes (R307, R311 to R313). -/

namespace Sys2Proof.Machine

/-! ### Producers and consumers -/

/-- The consumer reads a register other than 0 that one of its source fields names (R120, R304). -/
theorem mem_consumerReads {f : IfId} {r : RegIdx} :
    r ∈ consumerReads f ↔ f.valid = true
      ∧ ((usesRs (opcodeOf f.instr) (functOf f.instr) = true ∧ r = rsOf f.instr)
        ∨ (usesRt (opcodeOf f.instr) (functOf f.instr) = true ∧ r = rtOf f.instr)) ∧ r ≠ 0#5 := by
  cases hValid : f.valid <;> simp [consumerReads, hValid, readsOf, mem_readSet]

theorem consumerReads_of_valid {f : IfId} (h : f.valid = true) : consumerReads f = readsOf f.instr := if_pos h

theorem idexProduces_iff {e : IdEx} {r : RegIdx} : idexProduces e r = true ↔
    e.valid = true ∧ e.ctrl.regWrite = true ∧ destOf e.ctrl e.rt e.rd = r ∧ r ≠ 0#5 := by
  simp [idexProduces, and_assoc]

theorem exmemProduces_iff {m : ExMem} {r : RegIdx} : exmemProduces m r = true ↔
    m.valid = true ∧ m.ctrl.regWrite = true ∧ m.writeReg = r ∧ r ≠ 0#5 := by
  simp [exmemProduces, and_assoc]

@[simp] theorem bubble_idexProduces (r : RegIdx) : idexProduces .bubble r = false := rfl
@[simp] theorem bubble_exmemProduces (r : RegIdx) : exmemProduces .bubble r = false := rfl

/-- A valid slot goes on from execute to memory with its bundle (R277). -/
theorem executeStage_of_valid {c : Config} {e : IdEx} {hi lo : Word} {x : ExMem} {hilo : Option (Word × Word)}
    (h : executeStage c e hi lo = .ok (x, hilo)) (hValid : e.valid = true) : x.valid = true ∧ x.ctrl = e.ctrl := by
  rcases executeStage_ok h with ⟨hInvalid, _⟩ | ⟨_, _, _, rfl, _⟩
  · exact absurd hValid (by simp [hInvalid])
  · exact ⟨rfl, rfl⟩

/-- A slot produces in memory what the peek-ahead found it to produce in execute (R114, R303). -/
theorem executeStage_produces {c : Config} {e : IdEx} {hi lo : Word} {x : ExMem} {hilo : Option (Word × Word)}
    (h : executeStage c e hi lo = .ok (x, hilo)) (r : RegIdx) : exmemProduces x r = idexProduces e r := by
  rcases executeStage_ok h with ⟨hInvalid, rfl, _⟩ | ⟨hValid, _, _, rfl, _⟩
  · simp [idexProduces, hInvalid]
  · simp [idexProduces, exmemProduces, executedSlot, hValid]

/-- A slot produces in write-back what it produced in memory (R303). -/
theorem memoryStage_produces {c : Config} {m : ExMem} {mem : Memory} {n : Nat} {pred : PredState} {o : MemOut}
    (h : memoryStage c m mem n pred = .ok o) (r : RegIdx) : memwbProduces o.memwb r = exmemProduces m r := by
  rcases memoryStage_ok h with ⟨hInvalid, rfl⟩ | ⟨hValid, _, hSlot, _⟩
  · simp [memwbProduces, exmemProduces, hInvalid]
  · simp [memwbProduces, exmemProduces, hSlot, accessedSlot, hValid]

/-- The decoder gives the loaded word as the write-back source to loads alone (R113). -/
theorem controlOf_memtoReg_eq_mem_iff (opcode funct : BitVec 6) :
    (controlOf opcode funct).memtoReg = .mem ↔ (controlOf opcode funct).memRead = true := by
  unfold controlOf
  split_ifs <;> simp [rTypeCtrl, Ctrl.off]

/-! ### The stall -/

theorem completed_cfg {s t : State} (h : Completed s t) : t.cfg = s.cfg := by
  obtain ⟨_, _, _, rfl⟩ := completed_commit h
  rw [terminate_cfg, commit_cfg]

theorem decodes_iff (s : State) : decodes s = true ↔ s.ifid.cur.valid = true ∧ stallOf s = false := by
  simp [decodes]

/-- The unit never stalls under `FORWARD` (R305). -/
theorem stallOf_of_forward {s : State} (h : s.cfg.policy = .forward) : stallOf s = false := by
  simp [stallOf, h]

/-- The unit stalls under `STALL` on a register that a non-load in execute, or anything in memory, produces (R305). -/
theorem stallOf_iff {s : State} (h : s.cfg.policy = .stall) :
    stallOf s = true ↔ ∃ r ∈ consumerReads s.ifid.cur,
      (idexProduces s.idex.cur r = true ∧ s.idex.cur.ctrl.memRead = false)
        ∨ exmemProduces s.exmem.cur r = true := by
  simp [stallOf, stallNeeded, h]

/-- A stalled consumer is held, and a bubble is sent after the producer (R276, R306). -/
theorem completed_of_stall {s t : State} (h : Completed s t) (hStall : stallOf s = true)
    (hSuppressed : fetchSuppressed s = false) (hRedirect : redirectOf s = none) :
    t.ifid = .both s.ifid.cur ∧ t.pc = s.pc ∧ t.idex = .both .bubble := by
  have hHeld : ¬(s.pc = s.cfg.sentinel ∨ s.haltSeen = true) := by
    simpa [hSuppressed] using (fetchSuppressed_iff s).not
  obtain ⟨hPc, hHalt⟩ := not_or.mp hHeld
  obtain ⟨_, hFetch⟩ := Pipeline.fetchStage s t h hRedirect
  obtain ⟨hStalled, _⟩ := hFetch hPc (Bool.not_eq_true _ ▸ hHalt)
  obtain ⟨hIfId, hNext⟩ := hStalled hStall
  obtain ⟨hBubble, _⟩ := Pipeline.decodeStage s t h hRedirect
  exact ⟨hIfId, hNext, hBubble (by simp [decodes, hStall])⟩

/-- Fetch is no more suppressed after a cycle that holds the pc than before (R274). -/
theorem completed_not_suppressed {s t : State} (h : Completed s t) (hSuppressed : fetchSuppressed s = false)
    (hPc : t.pc = s.pc) : fetchSuppressed t = false := by
  have hCfg := completed_cfg h
  obtain ⟨hHalt, _⟩ := Pipeline.termination s t h
  rw [or_comm, ← fetchSuppressed_iff] at hHalt
  rw [← Bool.not_eq_true, fetchSuppressed_iff, hHalt, hCfg, hPc]
  simp only [hSuppressed, Bool.false_eq_true, or_false]
  exact fun hSentinel => by simp [fetchSuppressed, hSentinel] at hSuppressed

/-- Over a cycle without a redirect the producer in execute becomes the producer in memory (R303). -/
theorem completed_exmem_produces {s t : State} (h : Completed s t) (hRedirect : redirectOf s = none)
    (r : RegIdx) : exmemProduces t.exmem.cur r = idexProduces s.idex.cur r := by
  obtain ⟨p, hPhases, _, _, _, _, hExMem⟩ := completed_of_no_redirect h hRedirect
  obtain ⟨_, _, _, _, hExecute, _⟩ := phases_ok.mp hPhases
  rw [hExMem, PipeReg.both_cur, executeStage_produces hExecute]

/-- Over a cycle without a redirect a valid slot in execute goes on to memory with its bundle (R277). -/
theorem completed_exmem_of_valid {s t : State} (h : Completed s t) (hRedirect : redirectOf s = none)
    (hValid : s.idex.cur.valid = true) : t.exmem.cur.valid = true ∧ t.exmem.cur.ctrl = s.idex.cur.ctrl := by
  obtain ⟨p, hPhases, _, _, _, _, hExMem⟩ := completed_of_no_redirect h hRedirect
  obtain ⟨_, _, _, _, hExecute, _⟩ := phases_ok.mp hPhases
  rw [hExMem, PipeReg.both_cur]
  exact executeStage_of_valid hExecute hValid

/-- Over a cycle the producer in memory becomes the producer in write-back (R303). -/
theorem completed_memwb_produces {s t : State} (h : Completed s t) (r : RegIdx) :
    memwbProduces t.memwb.cur r = exmemProduces s.exmem.cur r := by
  obtain ⟨_, p, hPhases, rfl⟩ := completed_commit h
  obtain ⟨_, _, _, _, _, hMemory, _⟩ := phases_ok.mp hPhases
  rw [terminate_memwb, commit_memwb, PipeReg.both_cur, memoryStage_produces hMemory]

/-! ### The operands of the decoded slot -/

/-- The value decode and forwarding give the operand field that names `r`, in terms of the state `t` after the
cycle; `used` says whether the word reads the field (R276, R311, R312). -/
def State.operand (t : State) (used : Bool) (r : RegIdx) : Word :=
  match t.cfg.policy with
  | .stall => regRead t.regs r
  | .forward =>
    if used then forwardOperand t.exmem.cur t.memwb.cur r (regRead t.regs r) else regRead t.regs r

theorem operand_of_stall {t : State} (h : t.cfg.policy = .stall) (used : Bool) (r : RegIdx) :
    t.operand used r = regRead t.regs r := by
  simp [State.operand, h]

theorem operand_of_forward {t : State} (h : t.cfg.policy = .forward) (used : Bool) (r : RegIdx) :
    t.operand used r =
      if used then forwardOperand t.exmem.cur t.memwb.cur r (regRead t.regs r) else regRead t.regs r := by
  simp [State.operand, h]

/-- The forward mux, the source of the execute stage written out (R312). -/
theorem forwardOperand_eq (x : ExMem) (y : MemWb) (r : RegIdx) (v : Word) :
    forwardOperand x y r v =
      if exmemProduces x r = true ∧ x.ctrl.memtoReg ≠ .mem then
        (if x.ctrl.memtoReg = .alu then x.aluResult else x.link)
      else if memwbProduces y r = true then memwbValue y
      else v := by
  cases hSource : x.ctrl.memtoReg <;> simp [forwardOperand, exmemValue, hSource]

/-- Forwarding where the execute-stage producer, if any, is no load: the youngest producer's value (R312, R313). -/
theorem forwardOperand_eq_pendingRead {t : State} {r : RegIdx}
    (h : exmemProduces t.exmem.cur r = true → t.exmem.cur.ctrl.memtoReg ≠ .mem) :
    forwardOperand t.exmem.cur t.memwb.cur r (regRead t.regs r) = t.pendingRead r := by
  cases hProduces : exmemProduces t.exmem.cur r with
  | true => simp [forwardOperand, State.pendingRead, hProduces, h hProduces]
  | false => simp [forwardOperand, State.pendingRead, hProduces]

/-- Forwarding with a load in execute: the memory-stage producer's value, else the register file's (R307, R312). -/
theorem forwardOperand_of_load {x : ExMem} (y : MemWb) (r : RegIdx) (v : Word) (h : x.ctrl.memtoReg = .mem) :
    forwardOperand x y r v = if memwbProduces y r = true then memwbValue y else v := by
  simp [forwardOperand, h]

@[simp] theorem decodedSlot_valid (regs : RegFile) (f : IfId) : (decodedSlot regs f).valid = true := rfl

/-- Forwarding into a decoded slot: each operand is the mux's value where the word reads the field (R276, R311). -/
theorem forwardInto_decodedSlot (x : ExMem) (y : MemWb) (regs : RegFile) (f : IfId) :
    forwardInto x y (decodedSlot regs f) =
      { decodedSlot regs f with
        rsVal := if usesRs (opcodeOf f.instr) (functOf f.instr) then
            forwardOperand x y (rsOf f.instr) (regRead regs (rsOf f.instr))
          else regRead regs (rsOf f.instr)
        rtVal := if usesRt (opcodeOf f.instr) (functOf f.instr) then
            forwardOperand x y (rtOf f.instr) (regRead regs (rtOf f.instr))
          else regRead regs (rtOf f.instr) } := rfl

/-- The slot a completed cycle decodes, its operands as `State.operand` has them; under `FAULT` it is in no load-use
case (R276, R307, R312). -/
theorem completed_decodes {s t : State} (h : Completed s t) (hRedirect : redirectOf s = none)
    (hDecodes : decodes s = true) :
    t.idex.cur =
        { decodedSlot t.regs s.ifid.cur with
          rsVal := t.operand (usesRs (opcodeOf s.ifid.cur.instr) (functOf s.ifid.cur.instr)) (rsOf s.ifid.cur.instr)
          rtVal := t.operand (usesRt (opcodeOf s.ifid.cur.instr) (functOf s.ifid.cur.instr)) (rtOf s.ifid.cur.instr) }
      ∧ (s.cfg.loadUseMode = .fault → loadUse s.idex.cur s.ifid.cur = false) := by
  obtain ⟨_, p, hPhases, rfl⟩ := completed_commit h
  rw [redirectOf_of_ok hPhases] at hRedirect
  obtain ⟨_, _, _, hDecode, _⟩ := phases_ok.mp hPhases
  obtain ⟨hValid, hNoStall⟩ := (decodes_iff s).mp hDecodes
  rcases decodeStage_ok hDecode with ⟨hNone, _⟩ | ⟨_, _, hSlot, _, hNoLoadUse⟩
  · simp [hValid, hNoStall] at hNone
  · refine ⟨?_, hNoLoadUse⟩
    cases hPolicy : s.cfg.policy with
    | stall =>
      simp only [operand_of_stall, hPolicy, afterFlush_of_no_redirect s.cfg hRedirect, forwarded_of_stall p hPolicy,
        hSlot, terminate_idex, terminate_regs, terminate_cfg, commit_idex, commit_regs, commit_cfg, PipeReg.both_cur]
      rfl
    | forward =>
      have hForwarded :
          forwarded s.cfg p = forwardInto p.executed p.memory.memwb (decodedSlot p.regs s.ifid.cur) := by
        simp [forwarded, hPolicy, hSlot]
      simp [operand_of_forward, hPolicy, afterFlush_of_no_redirect s.cfg hRedirect, hForwarded,
        forwardInto_decodedSlot]

/-- A valid slot in execute was decoded in the last cycle, and that cycle did not redirect (R276, R342). -/
theorem decodes_of_idex_valid {s t : State} (h : Completed s t) (hValid : t.idex.cur.valid = true) :
    redirectOf s = none ∧ decodes s = true := by
  have hRedirect : redirectOf s = none := by
    refine Option.eq_none_iff_forall_ne_some.mpr fun target hTarget => ?_
    obtain ⟨_, _, hBubble, _⟩ := flushOnRedirect s t target h hTarget
    simp [hBubble] at hValid
  refine ⟨hRedirect, Bool.not_eq_false _ ▸ fun hNot => ?_⟩
  obtain ⟨hBubble, _⟩ := Pipeline.decodeStage s t h hRedirect
  simp [hBubble hNot] at hValid

/-- No load produces what the consumer reads outside the load-use case (R307). -/
theorem memRead_false_of_produces {e : IdEx} {f : IfId} {r : RegIdx} (h : loadUse e f = false)
    (hReads : r ∈ consumerReads f) (hProduces : idexProduces e r = true) : e.ctrl.memRead = false := by
  rw [← Bool.not_eq_true]
  intro hLoad
  have hCase : loadUse e f = true := by
    simpa [loadUse, hLoad] using ⟨r, hReads, hProduces⟩
  simp [h] at hCase

/-- The load-use case is a load's (R307). -/
theorem memRead_of_loadUse {e : IdEx} {f : IfId} (h : loadUse e f = true) : e.ctrl.memRead = true :=
  (Bool.and_eq_true_iff.mp h).1

/-- After a cycle without a redirect, what stands in memory for a producer that was in execute selects the loaded
word exactly if it is a load (R113, R277). -/
theorem completed_memtoReg_iff {s t : State} {r : RegIdx} (h : Completed s t) (hRedirect : redirectOf s = none)
    (hBundles : s.BundlesFromDecoder) (hProduces : idexProduces s.idex.cur r = true) :
    t.exmem.cur.ctrl.memtoReg = .mem ↔ s.idex.cur.ctrl.memRead = true := by
  obtain ⟨hValid, _⟩ := idexProduces_iff.mp hProduces
  obtain ⟨_, hCtrl⟩ := completed_exmem_of_valid h hRedirect hValid
  obtain ⟨hIdEx, _⟩ := hBundles
  obtain ⟨hBundle, _⟩ := hIdEx hValid
  rw [hCtrl, hBundle]
  exact controlOf_memtoReg_eq_mem_iff _ _

/-- An operand field that the word reads holds the youngest producer's value, outside the load-use case: under
`STALL` no producer is left when the consumer decodes, under `FORWARD` the mux takes its value (R305, R312, R313). -/
theorem operand_eq_pendingRead {s t : State} {r : RegIdx} (h : Completed s t) (hRedirect : redirectOf s = none)
    (hDecodes : decodes s = true) (hBundles : s.BundlesFromDecoder)
    (hLoadUse : loadUse s.idex.cur s.ifid.cur = false) (hReads : r ≠ 0#5 → r ∈ consumerReads s.ifid.cur) :
    t.operand true r = t.pendingRead r := by
  have hCfg := completed_cfg h
  have hExMem := completed_exmem_produces h hRedirect r
  have hMemWb := completed_memwb_produces h r
  cases hPolicy : s.cfg.policy with
  | stall =>
    obtain ⟨_, hNoStall⟩ := (decodes_iff s).mp hDecodes
    rw [operand_of_stall (hCfg ▸ hPolicy)]
    by_cases hZero : r = 0#5
    · simp [State.pendingRead, hZero, exmemProduces, memwbProduces]
    have hNone := (stallOf_iff hPolicy).not.mp (by simp [hNoStall])
    push Not at hNone
    obtain ⟨hNoExecute, hNoMemory⟩ := hNone r (hReads hZero)
    have hIdEx : idexProduces s.idex.cur r = false := by
      rw [← Bool.not_eq_true]
      exact fun hProduces => hNoExecute hProduces (memRead_false_of_produces hLoadUse (hReads hZero) hProduces)
    simp [State.pendingRead, hExMem, hMemWb, hIdEx, hNoMemory]
  | forward =>
    rw [operand_of_forward (hCfg ▸ hPolicy), if_pos rfl]
    refine forwardOperand_eq_pendingRead fun hProduces => ?_
    rw [hExMem] at hProduces
    obtain ⟨_, _, _, hNonzero⟩ := idexProduces_iff.mp hProduces
    rw [Ne, completed_memtoReg_iff h hRedirect hBundles hProduces,
      memRead_false_of_produces hLoadUse (hReads hNonzero) hProduces]
    exact Bool.false_ne_true

/-- In the load-use case an operand that the load produces is the memory-stage producer's under `FORWARD`, else the
register file's (R307, R312). -/
theorem operand_of_loadUse {s t : State} {r : RegIdx} (h : Completed s t) (hRedirect : redirectOf s = none)
    (hBundles : s.BundlesFromDecoder) (hLoadUse : loadUse s.idex.cur s.ifid.cur = true)
    (hProduces : idexProduces s.idex.cur r = true) :
    t.operand true r =
      if s.cfg.policy = .forward ∧ memwbProduces t.memwb.cur r = true then memwbValue t.memwb.cur
      else regRead t.regs r := by
  have hCfg := completed_cfg h
  cases hPolicy : s.cfg.policy with
  | stall => simp [operand_of_stall (hCfg ▸ hPolicy : t.cfg.policy = .stall)]
  | forward =>
    have hLoad := (completed_memtoReg_iff h hRedirect hBundles hProduces).mpr (memRead_of_loadUse hLoadUse)
    rw [operand_of_forward (hCfg ▸ hPolicy), if_pos rfl, forwardOperand_of_load _ _ _ hLoad]
    simp only [true_and]

end Sys2Proof.Machine

namespace Sys2Proof

open Sys2Proof.Machine

/-- Settles O47: the stall asks the producers at the registers the word reads, and the read set has no register 0. -/
theorem stallCondition : Obligations.StallCondition := by
  intro s
  refine ⟨stallOf_of_forward, fun hPolicy => (stallOf_iff hPolicy).trans ⟨?_, ?_⟩⟩
  · rintro ⟨r, hReads, hProducer⟩
    obtain ⟨hValid, _, hNonzero⟩ := mem_consumerReads.mp hReads
    refine ⟨hValid, r, hNonzero, consumerReads_of_valid hValid ▸ hReads, hProducer.imp ?_ ?_⟩
    · rintro ⟨hProduces, hNoLoad⟩
      obtain ⟨hSlot, hWrite, hDest, _⟩ := idexProduces_iff.mp hProduces
      exact ⟨hSlot, hWrite, hDest, hNoLoad⟩
    · intro hProduces
      obtain ⟨hSlot, hWrite, hDest, _⟩ := exmemProduces_iff.mp hProduces
      exact ⟨hSlot, hWrite, hDest⟩
  · rintro ⟨hValid, r, hNonzero, hReads, hProducer⟩
    refine ⟨r, (consumerReads_of_valid hValid).symm ▸ hReads, hProducer.imp ?_ ?_⟩
    · rintro ⟨hSlot, hWrite, hDest, hNoLoad⟩
      exact ⟨idexProduces_iff.mpr ⟨hSlot, hWrite, hDest, hNonzero⟩, hNoLoad⟩
    · rintro ⟨hSlot, hWrite, hDest⟩
      exact exmemProduces_iff.mpr ⟨hSlot, hWrite, hDest, hNonzero⟩

/-- Settles O46: fetch and decode hold their slot, nothing is pushed, and the two older slots go on. -/
theorem stallHolds : Obligations.StallHolds := by
  intro s t hCompleted hStall hSuppressed hRedirect
  obtain ⟨hIfId, hPc, hIdEx⟩ := completed_of_stall hCompleted hStall hSuppressed hRedirect
  have hPushed : pushed s = [] := by simp [pushed, fetchReads, hStall]
  have hQueue := queuePushPop s t hCompleted hRedirect
  rw [hPushed, List.append_nil] at hQueue
  refine ⟨hIfId, hPc, hIdEx, hQueue, completed_exmem_of_valid hCompleted hRedirect, fun hValid => ?_⟩
  obtain ⟨_, hMemory⟩ := Pipeline.memoryStage s t hCompleted
  obtain ⟨hMemWb, _⟩ := hMemory hValid
  rw [hMemWb]
  exact ⟨rfl, rfl⟩

/-- Settles O48: the consumer is held while its producer goes from execute to memory to write-back, with bubbles after
it. -/
theorem stallCycles : Obligations.StallCycles := by
  intro s t u hFirst hSecond hPolicy hValid hSuppressed hRedirect hRedirect'
  have hPolicyT : t.cfg.policy = .stall := completed_cfg hFirst ▸ hPolicy
  have hPolicyU : u.cfg.policy = .stall := completed_cfg hSecond ▸ hPolicyT
  have hHeld := fun hStall => completed_of_stall hFirst hStall hSuppressed hRedirect
  rw [← consumerReads_of_valid hValid]
  refine ⟨?execute, ?memory, ?load⟩
  case execute =>
    rintro ⟨r, hReads, hProduces⟩ hNoLoad
    have hStall : stallOf s = true := (stallOf_iff hPolicy).mpr ⟨r, hReads, .inl ⟨hProduces, hNoLoad⟩⟩
    obtain ⟨hIfId, hPc, hIdEx⟩ := hHeld hStall
    have hStall' : stallOf t = true := by
      refine (stallOf_iff hPolicyT).mpr ⟨r, ?_, .inr ?_⟩
      · rwa [hIfId]
      · rwa [completed_exmem_produces hFirst hRedirect]
    obtain ⟨_, _, hIdEx'⟩ :=
      completed_of_stall hSecond hStall' (completed_not_suppressed hFirst hSuppressed hPc) hRedirect'
    refine ⟨hStall, hStall', ?_⟩
    rw [← Bool.not_eq_true, stallOf_iff hPolicyU]
    simp [completed_exmem_produces hSecond hRedirect', hIdEx, hIdEx']
  case memory =>
    rintro hNotExecute ⟨r, hReads, hProduces⟩
    have hStall : stallOf s = true := (stallOf_iff hPolicy).mpr ⟨r, hReads, .inr hProduces⟩
    obtain ⟨hIfId, _, hIdEx⟩ := hHeld hStall
    refine ⟨hStall, ?_⟩
    rw [← Bool.not_eq_true, stallOf_iff hPolicyT, hIfId, hIdEx]
    simpa [completed_exmem_produces hFirst hRedirect] using hNotExecute
  case load =>
    intro hLoad hNotMemory
    rw [← Bool.not_eq_true, stallOf_iff hPolicy]
    simpa [hLoad] using hNotMemory

/-- Settles O36: both operand fields of the decoded slot come from one mux. -/
theorem forwardMux : Obligations.ForwardMux := by
  intro s t hCompleted hPolicy hValid
  obtain ⟨hRedirect, hDecodes⟩ := decodes_of_idex_valid hCompleted hValid
  obtain ⟨hSlot, _⟩ := completed_decodes hCompleted hRedirect hDecodes
  have hCfg := completed_cfg hCompleted
  simp only [operand_of_forward (hCfg ▸ hPolicy : t.cfg.policy = .forward), forwardOperand_eq] at hSlot
  rw [hSlot]
  exact ⟨rfl, rfl⟩

/-- Settles O37: both operand fields, by `operand_eq_pendingRead`. -/
theorem operandsAreCurrent : Obligations.OperandsAreCurrent := by
  intro s t hCompleted hBundles hValid hLoadUse
  obtain ⟨hRedirect, hDecodes⟩ := decodes_of_idex_valid hCompleted hValid
  obtain ⟨hSlot, _⟩ := completed_decodes hCompleted hRedirect hDecodes
  obtain ⟨hIfId, _⟩ := (decodes_iff s).mp hDecodes
  have hCurrent {r : RegIdx} := operand_eq_pendingRead (r := r) hCompleted hRedirect hDecodes hBundles hLoadUse
  rw [hSlot]
  refine ⟨fun (hUses : usesRs (opcodeOf s.ifid.cur.instr) (functOf s.ifid.cur.instr) = true) => ?rs,
    fun (hUses : usesRt (opcodeOf s.ifid.cur.instr) (functOf s.ifid.cur.instr) = true) => ?rt⟩
  all_goals simp only [hUses]
  case rs => exact hCurrent fun hNonzero => mem_consumerReads.mpr ⟨hIfId, .inl ⟨hUses, rfl⟩, hNonzero⟩
  case rt => exact hCurrent fun hNonzero => mem_consumerReads.mpr ⟨hIfId, .inr ⟨hUses, rfl⟩, hNonzero⟩

/-- Settles O38: under `FAULT` the cycle would not have completed, and both operand fields are those of
`operand_of_loadUse`. -/
theorem loadUseReadsStale : Obligations.LoadUseReadsStale := by
  intro s t hCompleted hBundles hRedirect hDecodes hLoadUse
  obtain ⟨hSlot, hNoFault⟩ := completed_decodes hCompleted hRedirect hDecodes
  have hStale {r : RegIdx} := operand_of_loadUse (r := r) hCompleted hRedirect hBundles hLoadUse
  refine ⟨?_, fun hUses hProduces => ?rs, fun hUses hProduces => ?rt⟩
  · cases hMode : s.cfg.loadUseMode with
    | stale => rfl
    | fault => simp [hNoFault hMode] at hLoadUse
  all_goals
    rw [hSlot]
    simp only [hUses]
    exact ⟨rfl, hStale hProduces⟩

end Sys2Proof
end

section
/-! Proofs of the statements of 70_reset_and_hazards.md: what `boot` refuses (R455), the values it gives (R451), and the
invariants of the state it answers. -/

namespace Sys2Proof.Machine

/-! ### What the host admits -/

/-- The clauses of an admitted configuration (R455). -/
theorem config_wellFormed_iff (c : Config) : c.wellFormed = true ↔
    c.memSize ≠ 0 ∧ c.memSize % 4 = 0 ∧ c.memSize ≤ 2 ^ 32 ∧ c.spInit.toNat ≤ c.memSize
      ∧ c.sentinel.toNat % 4 ≠ 0 := by
  simp [Config.wellFormed, and_assoc]

/-- The clauses of an admitted image (R61, R455). -/
theorem imageFits_iff (c : Config) (img : List Byte) :
    imageFits c img = true ↔ img.length % 4 = 0 ∧ img.length ≤ c.memSize := by
  simp [imageFits, imageBase]

/-- `boot` answers the reset state with the image loaded, exactly where the host admits both inputs (R450, R455). -/
theorem boot_eq_next_iff (c : Config) (img : List Byte) (s : State) :
    boot c img = .next s ↔ c.wellFormed = true ∧ imageFits c img = true
      ∧ s = State.resetWith c (bytesWrite [] imageBase img) := by
  unfold boot
  cases c.wellFormed <;> cases imageFits c img <;> simp [eq_comm]

/-! ### The reset state -/

/-- The reset file is a file of zeros with registers 29 and 31 written (R24). -/
theorem init_eq_regWrite (c : Config) :
    RegFile.init c = regWrite (regWrite (Vector.replicate 32 0#32) 29#5 c.spInit) 31#5 c.sentinel := rfl

/-- The register file at reset (R24). -/
theorem regRead_init (c : Config) (i : RegIdx) :
    regRead (RegFile.init c) i = if i = 31#5 then c.sentinel else if i = 29#5 then c.spInit else 0#32 := by
  have hZeros : regRead (Vector.replicate 32 0#32) i = 0#32 := by simp [regRead]
  rw [init_eq_regWrite, regRead_regWrite, regRead_regWrite, hZeros]
  by_cases hRa : i = 31#5
  · simp [hRa]
  by_cases hSp : i = 29#5
  · simp [hSp]
  · simp [hRa, hSp]

/-- Memory at reset is the image, and 0 outside it (R61, R451). -/
theorem byteRead_image (img : List Byte) (k : Nat) :
    byteRead (bytesWrite [] imageBase img) k = img.getD k 0#8 := by
  by_cases hInside : k < img.length
  · have hByte := byteRead_bytesWrite_inside (m := []) imageBase k img rfl hInside
    rw [imageBase, Nat.zero_add] at hByte
    rw [imageBase, hByte, List.getD_eq_getElem _ _ hInside]
  · have hLength : img.length ≤ k := Nat.le_of_not_lt hInside
    rw [byteRead_bytesWrite_outside _ _ _ _ (.inr (by simpa [imageBase] using hLength)),
      List.getD_eq_default _ _ hLength]
    rfl

/-- Nothing is in flight at reset, so the queue is right to be empty (R344, R451). -/
theorem resetWith_queueInvariant {c : Config} (m : Memory) (h : c.wellFormed = true) :
    (State.resetWith c m).QueueInvariant := ⟨h, rfl, fun _ => rfl⟩

theorem resetWith_memoryCanonical {c : Config} {img : List Byte} (h : imageFits c img = true) :
    (State.resetWith c (bytesWrite [] imageBase img)).MemoryCanonical := by
  obtain ⟨_, hLength⟩ := (imageFits_iff c img).mp h
  exact ⟨bytesWrite_wf imageBase img rfl,
    bytesWrite_below imageBase img rfl ((Nat.zero_add _).trans_le hLength)⟩

theorem resetWith_slotsWellFormed (c : Config) (m : Memory) : (State.resetWith c m).SlotsWellFormed :=
  ⟨.inr rfl, .inr rfl, .inr rfl, .inr rfl, rfl, rfl, rfl, rfl⟩

theorem resetWith_executeCodeValid (c : Config) (m : Memory) : (State.resetWith c m).ExecuteCodeValid := nofun

theorem resetWith_bundlesFromDecoder (c : Config) (m : Memory) : (State.resetWith c m).BundlesFromDecoder :=
  (bundlesFromDecoder_iff _).mpr
    ⟨IdEx.bubble_fromDecoder, ExMem.bubble_fromDecoder, MemWb.bubble_fromDecoder⟩

theorem resetWith_slotsAligned (c : Config) (m : Memory) : (State.resetWith c m).SlotsAligned :=
  (slotsAligned_iff _).mpr ⟨rfl, rfl, ExMem.bubble_aligned⟩

end Sys2Proof.Machine

namespace Sys2Proof

open Sys2Proof.Machine

/-- Settles O55: each cause falsifies a clause of the admitted configurations, or of the admitted images. -/
theorem bootRefuses : Obligations.BootRefuses := by
  intro c img
  refine ⟨fun hCause => ?configuration, fun hConfig hCause => ?image⟩
  case configuration =>
    have hRefused : c.wellFormed ≠ true := by
      rw [Ne, config_wellFormed_iff]
      omega
    rw [boot, if_neg hRefused]
  case image =>
    have hRefused : imageFits c img ≠ true := by
      rw [Ne, imageFits_iff]
      omega
    rw [boot, if_pos hConfig, if_neg hRefused]

/-- Settles O54: `boot` answers the reset state, whose registers and memory are `regRead_init` and
`byteRead_image`. -/
theorem resetValues : Obligations.ResetValues := by
  intro c img hConfig hImage
  refine ⟨_, (boot_eq_next_iff c img _).mpr ⟨hConfig, hImage, rfl⟩, rfl, byteRead_image img, regRead_zero _,
    (regRead_init c _).trans rfl, (regRead_init c _).trans rfl, fun i hSp hRa => ?_, ?_⟩
  · exact (regRead_init c i).trans (by rw [if_neg hRa, if_neg hSp])
  · exact ⟨rfl, rfl, rfl, rfl, rfl, rfl, rfl, rfl, rfl, rfl, rfl, rfl, rfl, rfl, rfl, rfl, rfl, rfl, rfl⟩

/-- Settles O60: the queue and memory invariants rest on what the host admits, the others on the bubbles of reset;
`State.reset` is the reset under the default configuration with the empty image. -/
theorem resetMeetsInvariants : Obligations.ResetMeetsInvariants := by
  intro c img s hBoot
  obtain ⟨hConfig, hImage, rfl⟩ := (boot_eq_next_iff c img s).mp hBoot
  exact ⟨resetWith_queueInvariant _ hConfig, resetWith_memoryCanonical hImage, resetWith_slotsWellFormed _ _,
    resetWith_executeCodeValid _ _, resetWith_bundlesFromDecoder _ _, resetWith_slotsAligned _ _,
    resetWith_queueInvariant [] (by decide), resetWith_memoryCanonical (img := []) rfl⟩

end Sys2Proof
end
